-- ==== Sys2Proof/Word.lean ====
section
/-! DEFINITION. The word types of the resampler: command and register words, samples, contribution tables
(00_scope.md R6 to R8; 10_state.md R31 to R39). -/

namespace Sys2Proof

/-- A command word, and the width of `STATUS`, `INFO0` and `INFO1` at the host port (`CMDBITS` = 32, R6). -/
abbrev Word := BitVec 32

/-- The contents of a configuration or coordinate register (`REGBITS` = 20, R6). -/
abbrev Field20 := BitVec 20

/-- One channel value, an unsigned integer in [0, 65535] (`SMPBITS` = 16, R6). -/
abbrev U16 := BitVec 16

/-- One byte of the byte memory. -/
abbrev Byte := BitVec 8

/-- One Sample: four 16-bit slots, slot `c<n>` holding channel n (10_state.md R36; 20_memory.md R82).
It is the contents of one cell and of the sample registers `SMP0` to `SMP3`. The channel count is not
part of it: it is the register `CHANS`. -/
structure Sample where
  c0 : U16
  c1 : U16
  c2 : U16
  c3 : U16
deriving DecidableEq, Repr, Inhabited

/-- A contribution table over a number type: one list of (source index, weight) pairs per destination
coordinate (10_state.md R39; the index is an unbounded integer there). -/
abbrev TableOf (F : Type) := List (List (Int × F))

/-- A contribution table as the state holds it: each weight a rational, in `NUM_Q` (log 1) the weight itself, in
another number system the name of its value (log 23). -/
abbrev Table := TableOf Rat

end Sys2Proof
end

