-- ==== Sys2Proof/Machine/Num.lean ====
section
/-! DEFINITION. The weight number system `NUM` (00_scope.md R9): the record of operations every rule of the builder
and of the multiply-accumulate pipeline is written over, its reference instance `numQ` (exact rationals), which the
machine's own chip has (log 1), and the alternative instance `numF64` (IEEE 754 binary64, R10). `NUM` is a field of
`Config`; a number system over another type enters it through `heldNum` (log 23). -/

namespace Sys2Proof.Machine

/-- The record `NUM` over a number type `F` (R9). The ROM read `K` is a separate parameter (Machine/Kernels.lean). -/
structure Num (F : Type) where
  /-- `F.ofInt(n)`. -/
  ofInt : Int → F
  /-- The `F` value of a rational number, for the support radii (42_kernel_bank.md R210). -/
  ofRat : Rat → F
  add : F → F → F
  sub : F → F → F
  mul : F → F → F
  div : F → F → F
  /-- `a < b`, an order of values. -/
  lt : F → F → Bool
  /-- `a = b`, an equality of values. -/
  eq : F → F → Bool
  /-- The value is a finite number (43_contribution_table.md R236). -/
  finite : F → Bool
  ceil : F → Int
  floor : F → Int
  /-- `ClampRound(a)` (44_separable_resampler.md R261). -/
  clampRound : F → U16
deriving Inhabited

/-- `ClampRound` on an exact value: clamp to [0, 65535], then the nearest integer, ties upward
(44_separable_resampler.md R261, R262). -/
def clampRoundQ (a : Rat) : U16 :=
  let v := if a < 0 then 0 else if 65535 < a then 65535 else a
  BitVec.ofInt 16 (v + 1 / 2).floor

/-- `NUM_Q`: `F` is the field of rational numbers and every operation is exact (R9). -/
def numQ : Num Rat where
  ofInt n := n
  ofRat q := q
  add a b := a + b
  sub a b := a - b
  mul a b := a * b
  div a b := a / b
  lt a b := decide (a < b)
  eq a b := decide (a = b)
  finite _ := true
  ceil a := a.ceil
  floor a := a.floor
  clampRound := clampRoundQ

/-! ### Holding another number system's values as plain data (log 23) -/

/-- The number system `N` with each value held under a rational name: `name` gives the name of a value and `read`
the value of a name. `numQ` holds every value under itself. -/
def heldNum {F : Type} (N : Num F) (name : F → Rat) (read : Rat → F) : Num Rat where
  ofInt n := name (N.ofInt n)
  ofRat q := name (N.ofRat q)
  add a b := name (N.add (read a) (read b))
  sub a b := name (N.sub (read a) (read b))
  mul a b := name (N.mul (read a) (read b))
  div a b := name (N.div (read a) (read b))
  lt a b := N.lt (read a) (read b)
  eq a b := N.eq (read a) (read b)
  finite a := N.finite (read a)
  ceil a := N.ceil (read a)
  floor a := N.floor (read a)
  clampRound a := N.clampRound (read a)

/-- A table with every weight under its name. -/
def nameTable {F : Type} (name : F → Rat) (t : TableOf F) : Table := t.map fun l => l.map fun p => (p.1, name p.2)

/-! ### NUM_F64 (00_scope.md R10; log 15) -/

/-- A binary64 value: a sign and a magnitude, an infinity, or not a number. The operations only make
magnitudes that binary64 represents. -/
inductive F64 where
  | fin (neg : Bool) (mag : Rat)
  | inf (neg : Bool)
  | nan
deriving DecidableEq, Repr, Inhabited

/-- The absolute value. -/
def absQ (q : Rat) : Rat := if q < 0 then -q else q

/-- 2^e. -/
def pow2 (e : Int) : Rat := if 0 ≤ e then ((2 ^ e.toNat : Nat) : Rat) else 1 / ((2 ^ (-e).toNat : Nat) : Rat)

/-- The exponent `e` with 2^e ≤ q < 2^(e+1), for q > 0. -/
def binade (q : Rat) : Int :=
  let e := (Nat.log2 q.num.natAbs : Int) - (Nat.log2 q.den : Int)
  if pow2 e ≤ q then e else e - 1

/-- The nearest integer, ties to even. -/
def roundEven (q : Rat) : Int :=
  let n := q.floor
  let r := q - n
  if r < 1 / 2 then n else if 1 / 2 < r then n + 1 else if n % 2 = 0 then n else n + 1

/-- The multiple of the binary64 quantum (53 significant bits, exponents from -1074) nearest to q > 0,
ties to even; 2^1024 or more means overflow. -/
def roundMag (q : Rat) : Rat :=
  let u := if binade q - 52 < -1074 then -1074 else binade q - 52
  (roundEven (q / pow2 u) : Rat) * pow2 u

/-- The correctly rounded binary64 value of sign `neg` and magnitude `q`. -/
def roundF64 (neg : Bool) (q : Rat) : F64 :=
  if q = 0 then .fin neg 0
  else if pow2 1024 ≤ roundMag q then .inf neg
  else .fin neg (roundMag q)

/-- The value of a sign and a magnitude. -/
def signed (neg : Bool) (mag : Rat) : Rat := if neg then -mag else mag

/-- Rounding of an exact value; an exact zero is positive. -/
def ofRatF64 (q : Rat) : F64 := roundF64 (decide (q < 0)) (absQ q)

/-- The opposite. -/
def negF64 : F64 → F64
  | .fin n q => .fin (!n) q
  | .inf n => .inf (!n)
  | .nan => .nan

/-- The correctly rounded sum; an exact zero sum is negative only for two negative terms. -/
def addF64 : F64 → F64 → F64
  | .nan, _ | _, .nan => .nan
  | .inf n, .inf m => if n = m then .inf n else .nan
  | .inf n, .fin _ _ => .inf n
  | .fin _ _, .inf m => .inf m
  | .fin n p, .fin m q =>
    let v := signed n p + signed m q
    if v = 0 then .fin (n && m) 0 else ofRatF64 v

/-- The correctly rounded product. -/
def mulF64 : F64 → F64 → F64
  | .nan, _ | _, .nan => .nan
  | .inf n, .inf m => .inf (n != m)
  | .inf n, .fin m q => if q = 0 then .nan else .inf (n != m)
  | .fin n p, .inf m => if p = 0 then .nan else .inf (n != m)
  | .fin n p, .fin m q => roundF64 (n != m) (p * q)

/-- The correctly rounded quotient; the rules never divide by a zero value (R9). -/
def divF64 : F64 → F64 → F64
  | .nan, _ | _, .nan => .nan
  | .inf _, .inf _ => .nan
  | .inf n, .fin m _ => .inf (n != m)
  | .fin n _, .inf m => .fin (n != m) 0
  | .fin n p, .fin m q =>
    if q = 0 then (if p = 0 then .nan else .inf (n != m)) else roundF64 (n != m) (p / q)

/-- The order of values; false when an operand is not a number. -/
def ltF64 : F64 → F64 → Bool
  | .nan, _ | _, .nan => false
  | .inf n, .inf m => n && !m
  | .inf n, .fin _ _ => n
  | .fin _ _, .inf m => !m
  | .fin n p, .fin m q => decide (signed n p < signed m q)

/-- The equality of values; false when an operand is not a number. -/
def eqF64 : F64 → F64 → Bool
  | .nan, _ | _, .nan => false
  | .inf n, .inf m => n == m
  | .inf _, .fin _ _ | .fin _ _, .inf _ => false
  | .fin n p, .fin m q => decide (signed n p = signed m q)

/-- The exact value, 0 for an infinity or not a number: `ceil` and `floor` are only taken of finite values
(log 15). -/
def valueF64 : F64 → Rat
  | .fin n q => signed n q
  | .inf _ | .nan => 0

/-- The value is a finite number. -/
def finiteF64 : F64 → Bool
  | .fin _ _ => true
  | .inf _ | .nan => false

/-- `ClampRound` on binary64: infinities go to the bounds, not-a-number to 0 (44_separable_resampler.md R261). -/
def clampRoundF64 : F64 → U16
  | .fin n q => clampRoundQ (signed n q)
  | .inf neg => if neg then 0 else 65535
  | .nan => 0

/-- `NUM_F64`: each operation correctly rounded to nearest, ties to even, one at a time (R10). -/
def numF64 : Num F64 where
  ofInt n := ofRatF64 n
  ofRat q := ofRatF64 q
  add := addF64
  sub a b := addF64 a (negF64 b)
  mul := mulF64
  div := divF64
  lt := ltF64
  eq := eqF64
  finite := finiteF64
  ceil a := (valueF64 a).ceil
  floor a := (valueF64 a).floor
  clampRound := clampRoundF64

/-- A rational squeezed into the open interval from -1 to 1. -/
def squeezeQ (q : Rat) : Rat := q / (1 + absQ q)

/-- The rational squeezed to `x`. -/
def unsqueezeQ (x : Rat) : Rat := x / (1 - absQ x)

/-- The name of a binary64 value: no two values share one (log 23). -/
def nameF64 : F64 → Rat
  | .fin false q => squeezeQ q
  | .fin true q => 2 + squeezeQ q
  | .inf false => 3
  | .inf true => 4
  | .nan => 5

/-- The binary64 value of a name. -/
def readF64 (x : Rat) : F64 :=
  if x < 1 then .fin false (unsqueezeQ x)
  else if x < 3 then .fin true (unsqueezeQ (x - 2))
  else if x = 3 then .inf false
  else if x = 4 then .inf true
  else .nan

/-- `NUM_F64` as a value of `Config`'s field. -/
def numF64Held : Num Rat := heldNum numF64 nameF64 readF64

end Sys2Proof.Machine
end

