-- ==== Sys2Proof/Syntax.lean ====
section
/-! DEFINITION. The nine commands of RSMP-1 and the names their operand fields select
(30_encoding.md R125 to R128), and the six kernels of the bank (42_kernel_bank.md R210). -/

namespace Sys2Proof

/-- A register that `SET` can write, in the order of its number `REG` 0 to 12 (30_encoding.md R126). -/
inductive Reg where
  | srcW | srcH | dstW | dstH | chans | depth | ksel | x | y | smp0 | smp1 | smp2 | smp3
deriving DecidableEq, Repr, Inhabited

/-- A sample buffer, `BUF` 0 to 2 (30_encoding.md R127; 10_state.md R37). -/
inductive Buf where
  | src | mid | dst
deriving DecidableEq, Repr, Inhabited

/-- An axis, `AXIS` 0 or 1 (30_encoding.md R128): X is horizontal, Y is vertical. -/
inductive Axis where
  | x | y
deriving DecidableEq, Repr, Inhabited

/-- A kernel of the bank, in the order of the kernel ids 0 to 5 (42_kernel_bank.md R210). -/
inductive Kernel where
  | box | bilinear | bspline | bicubic | lanczos3 | mitchell
deriving DecidableEq, Repr, Inhabited

/-- The commands, one constructor per row of spec/opcode_table.json. -/
inductive Instr where
  /-- `SET reg, imm` (40_config_and_pixelbuffer.md R161). -/
  | set (reg : Reg) (imm : Field20)
  /-- `CLR buf` (R162). -/
  | clr (buf : Buf)
  /-- `GET buf` (R163). -/
  | get (buf : Buf)
  /-- `PUT buf` (R164). -/
  | put (buf : Buf)
  /-- `UNPACK buf` (41_byte_conversion.md R193). -/
  | unpack (buf : Buf)
  /-- `PACK buf` (R196). -/
  | pack (buf : Buf)
  /-- `BUILD axis` (43_contribution_table.md R238). -/
  | build (axis : Axis)
  /-- `PASS axis` (44_separable_resampler.md R265). -/
  | pass (axis : Axis)
  /-- `RESIZE` (R266). -/
  | resize
deriving DecidableEq, Repr, Inhabited

end Sys2Proof
end

