-- ==== Sys2Proof/Machine/Kernels.lean ====
section
/-! DEFINITION. The kernel bank (42_kernel_bank.md): the support radii, the selector decode, the ROM under its
contract R212, and the default contents `KROM_DEFAULT` of 93_implementation_defined.md G1 to G6. -/

namespace Sys2Proof.Machine

/-- The support radius `KSUP[kid]` (R210). -/
def ksup : Kernel → Rat
  | .box => 1 / 2
  | .bilinear => 1
  | .bspline => 2
  | .bicubic => 2
  | .lanczos3 => 3
  | .mitchell => 2

/-- `KDecode(sel)`: 0 to 5 select a kernel, every other selector selects Box, without a flag (R211). -/
def kDecode (sel : Field20) : Kernel :=
  match sel.toNat with
  | 0 => .box
  | 1 => .bilinear
  | 2 => .bspline
  | 3 => .bicubic
  | 4 => .lanczos3
  | 5 => .mitchell
  | _ => .box

/-- `K(kid, 0)`, the kernel's maximum weight (R212 (e)), of the ROM cut from `raw`; never negative, since the
kernel is 0 outside its support (R212 (c)). -/
def romPeak (raw : Kernel → Rat → Rat) (k : Kernel) : Rat := if raw k 0 < 0 then 0 else raw k 0

/-- The values `raw` cut to the contract R212 in `NUM_Q`: 0 outside the support, at most the value at 0, symmetric
off the two points `t = KSUP` and `t = -KSUP`, otherwise as they are (log 2). -/
def romCut (raw : Kernel → Rat → Rat) (k : Kernel) (t : Rat) : Rat :=
  if ksup k < absQ t then 0
  else if t = 0 then romPeak raw k
  else
    let w := if absQ t = ksup k then raw k t else raw k (absQ t)
    if romPeak raw k < w then romPeak raw k else w

/-! ### KROM_DEFAULT (93_implementation_defined.md G1 to G6; log 16) -/

/-- G1: 1 on the half-open interval from -1/2 to 1/2, closed on the right. -/
def kBox (t : Rat) : Rat := if -(1 / 2) < t ∧ t ≤ 1 / 2 then 1 else 0

/-- G2: the triangle. -/
def kBilinear (t : Rat) : Rat := if absQ t < 1 then 1 - absQ t else 0

/-- G3: the cubic B-spline. -/
def kBspline (t : Rat) : Rat :=
  let a := absQ t
  if a < 1 then a * a * a / 2 - a * a + 2 / 3
  else if a < 2 then (2 - a) * (2 - a) * (2 - a) / 6
  else 0

/-- G4: cubic convolution with parameter -1/2. -/
def kBicubic (t : Rat) : Rat :=
  let x := absQ t
  if x < 1 then 3 / 2 * (x * x * x) - 5 / 2 * (x * x) + 1
  else if x < 2 then -(1 / 2) * (x * x * x) + 5 / 2 * (x * x) - 4 * x + 2
  else 0

/-- G6: the Mitchell-Netravali cubic with B = C = 1/3. -/
def kMitchell (t : Rat) : Rat :=
  let x := absQ t
  if x < 1 then (7 * (x * x * x) - 12 * (x * x) + 16 / 3) / 6
  else if x < 2 then (-(7 / 3) * (x * x * x) + 12 * (x * x) - 20 * x + 32 / 3) / 6
  else 0

/-- π to 50 decimals. -/
def piQ : Rat := 314159265358979323846264338327950288419716939937510 / 100000000000000000000000000000000000000000000000000

/-- `n` terms of the nested series of sin x / x, from term `j`; `x2` is x squared. -/
def sinSeries (x2 : Rat) : Nat → Nat → Rat
  | 0, _ => 1
  | n + 1, j => 1 - x2 / ((2 * j + 2) * (2 * j + 3) : Nat) * sinSeries x2 n (j + 1)

/-- sin(π t), for t reduced to a quarter turn; exactly 0 at every integer. -/
def sinPi (t : Rat) : Rat :=
  let r := t - 2 * ((t + 1) / 2).floor
  let r := if 1 / 2 < r then 1 - r else if r < -(1 / 2) then -1 - r else r
  let x := piQ * r
  x * sinSeries (x * x) 16 0

/-- sinc(0) = 1, sinc(x) = sin(π x) / (π x). -/
def sincQ (x : Rat) : Rat := if x = 0 then 1 else sinPi x / (piQ * x)

/-- The binary64 value nearest to q, as an exact rational. -/
def nearestB64 (q : Rat) : Rat := if q = 0 then 0 else signed (decide (q < 0)) (roundMag (absQ q))

/-- G5: sinc(t) sinc(t/3) below 3, held as the nearest binary64 value. -/
def kLanczos3 (t : Rat) : Rat := if absQ t < 3 then nearestB64 (sincQ (absQ t) * sincQ (absQ t / 3)) else 0

/-- `KROM_DEFAULT` (R213). -/
def kromDefault : Kernel → Rat → Rat
  | .box => kBox
  | .bilinear => kBilinear
  | .bspline => kBspline
  | .bicubic => kBicubic
  | .lanczos3 => kLanczos3
  | .mitchell => kMitchell

end Sys2Proof.Machine
end

