-- ==== Sys2Proof/WellFormed.lean ====
section
/-! DEFINITION. The one check on the fields of a command: a sample immediate has its high four bits zero
(30_encoding.md R126, R129, R130 case (d)). Every other field value the syntax can hold has an encoding. -/

namespace Sys2Proof

/-- The register is one of `SMP0` to `SMP3` (register numbers 9 to 12). -/
def Reg.isSample : Reg → Bool
  | .smp0 | .smp1 | .smp2 | .smp3 => true
  | .srcW | .srcH | .dstW | .dstH | .chans | .depth | .ksel | .x | .y => false

/-- The command has an encoding: `SET SMPn` takes a value of at most 16 bits. -/
def Instr.wf : Instr → Bool
  | .set r imm => !r.isSample || decide (imm.toNat < 65536)
  | .clr _ | .get _ | .put _ | .unpack _ | .pack _ | .build _ | .pass _ | .resize => true

end Sys2Proof
end

