-- ==== Sys2Proof/Decode.lean ====
section
/-! DEFINITION. The decoder, total on every 32-bit word and rejecting by name (30_encoding.md R120 to R132),
and the encoder of the same formats (R133). -/

namespace Sys2Proof

/-- Why a word is illegal: the cases of 30_encoding.md R130. -/
inductive Illegal where
  /-- (a) `OPC` is 0x00 or 0x0A to 0x3F. -/
  | opcode
  /-- (b) `SET` with `w[21:20]` not 0. -/
  | mbz2
  /-- (c) `SET` with `REG` 13, 14 or 15. -/
  | reg
  /-- (d) `SET SMPn` with `w[19:16]` not 0. -/
  | sampleImm
  /-- (e) a format-B or format-A command with `w[23:0]` not 0. -/
  | mbz24
  /-- (f) `BUF` 3. -/
  | buf
  /-- (g) `AXIS` 2 or 3. -/
  | axis
  /-- (h) `RESIZE` with `w[25:0]` not 0. -/
  | mbz26
deriving DecidableEq, Repr, Inhabited

/-- `w[hi:lo]`, read as an unsigned integer (00_scope.md R7). -/
def bits (w : Word) (hi lo : Nat) : Nat := w.toNat / 2 ^ lo % 2 ^ (hi + 1 - lo)

/-- The register numbers of 30_encoding.md R126. -/
def regNum : Reg → Nat
  | .srcW => 0 | .srcH => 1 | .dstW => 2 | .dstH => 3 | .chans => 4 | .depth => 5 | .ksel => 6
  | .x => 7 | .y => 8 | .smp0 => 9 | .smp1 => 10 | .smp2 => 11 | .smp3 => 12

/-- The register a `REG` field selects; 13, 14 and 15 select none (R126). -/
def regOf : Nat → Option Reg
  | 0 => some .srcW | 1 => some .srcH | 2 => some .dstW | 3 => some .dstH | 4 => some .chans
  | 5 => some .depth | 6 => some .ksel | 7 => some .x | 8 => some .y
  | 9 => some .smp0 | 10 => some .smp1 | 11 => some .smp2 | 12 => some .smp3
  | _ => none

/-- The buffer numbers of R127. -/
def bufNum : Buf → Nat
  | .src => 0 | .mid => 1 | .dst => 2

/-- The buffer a `BUF` field selects; 3 selects none (R127). -/
def bufOf : Nat → Option Buf
  | 0 => some .src | 1 => some .mid | 2 => some .dst
  | _ => none

/-- The axis numbers of R128. -/
def axisNum : Axis → Nat
  | .x => 0 | .y => 1

/-- The axis an `AXIS` field selects; 2 and 3 select none (R128). -/
def axisOf : Nat → Option Axis
  | 0 => some .x | 1 => some .y
  | _ => none

/-- Format S (R121, R126, R129). -/
def decodeSet (w : Word) : Except Illegal Instr :=
  if bits w 21 20 ≠ 0 then .error .mbz2
  else match regOf (bits w 25 22) with
    | none => .error .reg
    | some r =>
      if r.isSample = true ∧ bits w 19 16 ≠ 0 then .error .sampleImm
      else .ok (.set r (BitVec.ofNat 20 (bits w 19 0)))

/-- Format B (R122, R127); `mk` is the command `OPC` selects. -/
def decodeBuf (mk : Buf → Instr) (w : Word) : Except Illegal Instr :=
  if bits w 23 0 ≠ 0 then .error .mbz24
  else match bufOf (bits w 25 24) with
    | none => .error .buf
    | some b => .ok (mk b)

/-- Format A (R123, R128); `mk` is the command `OPC` selects. -/
def decodeAxis (mk : Axis → Instr) (w : Word) : Except Illegal Instr :=
  if bits w 23 0 ≠ 0 then .error .mbz24
  else match axisOf (bits w 25 24) with
    | none => .error .axis
    | some a => .ok (mk a)

/-- `Decode(w)` of 30_encoding.md R132, with `OPC = w[31:26]` (R120, R125). -/
def decode (w : Word) : Except Illegal Instr :=
  match bits w 31 26 with
  | 1 => decodeSet w
  | 2 => decodeBuf .clr w
  | 3 => decodeBuf .get w
  | 4 => decodeBuf .put w
  | 5 => decodeBuf .unpack w
  | 6 => decodeBuf .pack w
  | 7 => decodeAxis .build w
  | 8 => decodeAxis .pass w
  | 9 => if bits w 25 0 ≠ 0 then .error .mbz26 else .ok .resize
  | _ => .error .opcode

/-- A format-B or format-A word: `(OPC << 26) + (field << 24)` (R133). -/
def operandWord (opc field : Nat) : Word := BitVec.ofNat 32 (opc * 2 ^ 26 + field * 2 ^ 24)

/-- The word of a command (R133); for `SET SMPn` with an immediate above 65535 there is none, and
`Instr.wf` is false. -/
def encode : Instr → Word
  | .set r imm => BitVec.ofNat 32 (0x04000000 + regNum r * 2 ^ 22 + imm.toNat)
  | .clr b => operandWord 2 (bufNum b)
  | .get b => operandWord 3 (bufNum b)
  | .put b => operandWord 4 (bufNum b)
  | .unpack b => operandWord 5 (bufNum b)
  | .pack b => operandWord 6 (bufNum b)
  | .build a => operandWord 7 (axisNum a)
  | .pass a => operandWord 8 (axisNum a)
  | .resize => 0x24000000#32

/-- The command the decoder reads from a word numbered as spec/opcode_table.json numbers it (bit 0 the
least significant of the one 32-bit word; bits at and above `nbits` are 0); none where it refuses, and
none for a number that is no 32-bit word. -/
def decodeTableWord (nbits w : Nat) : Option Instr :=
  let v := w % 2 ^ nbits
  if v < 2 ^ 32 then
    match decode (BitVec.ofNat 32 v) with
    | .ok i => some i
    | .error _ => none
  else none

end Sys2Proof
end

