-- ==== Sys2Proof/Config.lean ====
section
/-! DEFINITION. What an implementation fixes and what the spec leaves free: the parameters of
00_scope.md R6 that a model takes as arguments, and the free draws of 10_state.md R45 and
93_implementation_defined.md U4, U5.

Every operation of the machine takes a `Config` as an argument, so a statement over every `c : Config` quantifies
over `NUM`, `KROM` and the capacities. The machine itself runs at `Config.chip`, whose number system is `NUM_Q` (log 1),
whose ROM is any that meets the contract R212 (log 2), and of which nothing else is known (log 4, 5, 6). -/

namespace Sys2Proof

/-- The parameters and free draws of one chip. -/
structure Config where
  /-- `CAP_SRC` less one: capacities are positive integers (R6). -/
  capSrcLess1 : Nat
  /-- `CAP_MID` less one. -/
  capMidLess1 : Nat
  /-- `CAP_DST` less one. -/
  capDstLess1 : Nat
  /-- `CAP_TAB` less one, in (index, weight) pairs. -/
  capTabLess1 : Nat
  /-- `CAP_BYT` less one. -/
  capBytLess1 : Nat
  /-- `NUM` (R6, R9), its values held as rationals (log 23): `numQ`, `numF64Held`, or any other. -/
  num : Machine.Num Rat
  /-- `KROM`, the ROM read `K(kid, t)` on held values. R212 is not imposed here: a statement over every `c` that does
  not ask for it holds for more ROMs than the spec's. -/
  krom : Kernel → Rat → Rat
  /-- What a cell not written since reset holds, drawn anew at every reset: (resets so far, buffer, address). -/
  powerOnCell : Nat → Buf → Nat → Sample
  /-- What a byte not written since reset holds: (resets so far, address). -/
  powerOnByte : Nat → Nat → Byte
  /-- What the host reads from `CTAB` while `TABV = 0`: (resets so far, the table last completed). -/
  staleTable : Nat → Table → Table
deriving Inhabited

/-- The open parameters and free draws of the machine's own chip: no value of it is known (00_scope.md R6, "OPEN"). -/
opaque Config.free : Config

/-- The chip the machine runs on: `NUM_Q` (log 1), and the free values cut to the contract of the ROM (log 2). -/
def Config.chip : Config := { Config.free with num := Machine.numQ, krom := Machine.romCut Config.free.krom }

/-- `CAP_SRC`, `CAP_MID`, `CAP_DST`, in cells (R6). -/
def Config.capBuf (c : Config) : Buf → Nat
  | .src => c.capSrcLess1 + 1
  | .mid => c.capMidLess1 + 1
  | .dst => c.capDstLess1 + 1

/-- `CAP_TAB`, in pairs (R6). -/
def Config.capTab (c : Config) : Nat := c.capTabLess1 + 1

/-- `CAP_BYT`, in bytes (R6). -/
def Config.capByt (c : Config) : Nat := c.capBytLess1 + 1

end Sys2Proof
end

