-- ==== Sys2Proof/Machine/State.lean ====
section
/-! DEFINITION. The state of the resampler (10_state.md R30 to R45), its reset value, and the reasons a
step can stop. -/

namespace Sys2Proof.Machine

/-- The construction mode of a table, `STATUS.TABMODE`: 0 = enlarge path, 1 = shrink path (10_state.md R34). -/
inductive TabMode where
  | enlarge | shrink
deriving DecidableEq, Repr, Inhabited

/-- What the host does between two steps (20_memory.md R90); host reads change nothing and are functions of
the state (Machine/HostPort.lean). -/
inductive HostAction where
  /-- (a) Present a command word. -/
  | command (w : Word)
  /-- (d) Write one cell of a sample buffer with any four u16 values. -/
  | writeCell (b : Buf) (a : Nat) (t : Sample)
  /-- (d) Write one byte of `BYT`. -/
  | writeByte (a : Nat) (v : Byte)
  /-- (e) Assert `RST`. -/
  | reset
deriving DecidableEq, Repr, Inhabited

/-- The machine's state: the tuple of 10_state.md R30, and two fields of the model's own, `epoch` and `host`. -/
structure State where
  /-- Register 0, source width (R31). -/
  srcW : Field20
  /-- Register 1, source height. -/
  srcH : Field20
  /-- Register 2, target width. -/
  dstW : Field20
  /-- Register 3, target height. -/
  dstH : Field20
  /-- Register 4, channel count. -/
  chans : Field20
  /-- Register 5, declared bit depth. -/
  depth : Field20
  /-- Register 6, kernel selector. -/
  ksel : Field20
  /-- Register 7, a two's-complement coordinate (R32). -/
  x : Field20
  /-- Register 8, a two's-complement coordinate (R32). -/
  y : Field20
  /-- Registers 9 to 12, `SMP0` to `SMP3` (R33). -/
  smp : Sample
  /-- `STATUS` bit 0, `FAULT` (R34). -/
  fault : Bool
  /-- `STATUS` bit 1, `TABV`. -/
  tabv : Bool
  /-- `STATUS` bit 2, `TABAX`. -/
  tabax : Axis
  /-- `STATUS` bit 3, `TABMODE`. -/
  tabmode : TabMode
  /-- The cause code (R35). -/
  err : BitVec 3
  /-- First word of the fault record (R35). -/
  info0 : Word
  /-- Second word of the fault record (R35). -/
  info1 : Word
  /-- Written cells of `SRC`, by linear address, in canonical form (R36, R37; log 10). -/
  src : List (Nat × Sample)
  /-- Written cells of `MID`. -/
  mid : List (Nat × Sample)
  /-- Written cells of `DST`. -/
  dst : List (Nat × Sample)
  /-- `CTAB`: the table last completed (R39; log 6). -/
  ctab : Table
  /-- Written bytes of `BYT`, in canonical form (R41; log 10). -/
  byt : List Host.Cell
  /-- THE MODEL'S OWN: resets seen so far, the draw of the unspecified memory contents (log 9). -/
  epoch : Nat
  /-- THE MODEL'S OWN: what the host does next, oldest first (R44; log 7). -/
  host : List HostAction
deriving DecidableEq, Repr

/-- The state right after reset (10_state.md R45): every register 0, nothing written in any memory. -/
def State.reset : State where
  srcW := 0
  srcH := 0
  dstW := 0
  dstH := 0
  chans := 0
  depth := 0
  ksel := 0
  x := 0
  y := 0
  smp := ⟨0, 0, 0, 0⟩
  fault := false
  tabv := false
  tabax := .x
  tabmode := .enlarge
  err := 0
  info0 := 0
  info1 := 0
  src := []
  mid := []
  dst := []
  ctab := []
  byt := []
  epoch := 0
  host := []

/-- Why the model stops. The block's own faults (60_exceptions.md) are no stops: they are next states with the
fault record written. -/
inductive Fault where
  /-- Raised by a host write to a cell address at or above the buffer's capacity: no such cell exists
  (20_memory.md R83, R90). Safe: the model stops where the spec says nothing (log 8). -/
  | noSuchCell (b : Buf) (a : Nat)
  /-- Raised by a host write to a byte address at or above `CAP_BYT`: no such byte exists. Safe (log 8). -/
  | noSuchByte (a : Nat)
deriving DecidableEq, Repr

/-- Why the model refuses. -/
inductive Refusal where
  /-- An instruction without a meaning, by its mnemonic; raised by no arm of `exec`: all nine commands have
  their meaning. Safe. -/
  | notModelled (mnemonic : String)
deriving DecidableEq, Repr

end Sys2Proof.Machine
end

