-- ==== Sys2Proof/Machine/Ops.lean ====
section
/-! DEFINITION. The named operations over memories, samples and the fault record: sparse memories in canonical
form, cells and bytes of the four memories, `raise` (60_exceptions.md R313) and reset (70_reset_and_hazards.md
R341), which is the only way back out of a fault (R315). -/

namespace Sys2Proof.Machine

/-! ### Sparse memories

A memory is a list of (address, unit) pairs with strictly rising addresses; an unlisted address `a` reads as
`d a`, and no listed unit equals that (log 10). -/

/-- The unit at address `a`, unlisted addresses reading as `d` says. -/
def memRead {α : Type} (d : Nat → α) : List (Nat × α) → Nat → α
  | [], a => d a
  | (b, v) :: m, a => if b = a then v else memRead d m a

/-- `m` without address `a`. -/
def memErase {α : Type} (a : Nat) (m : List (Nat × α)) : List (Nat × α) := m.filter fun e => e.1 ≠ a

/-- `m` with `v` listed at `a`, in address order. -/
def memInsert {α : Type} (a : Nat) (v : α) : List (Nat × α) → List (Nat × α)
  | [] => [(a, v)]
  | (b, w) :: m =>
    if a < b then (a, v) :: (b, w) :: m
    else if a = b then (a, v) :: m
    else (b, w) :: memInsert a v m

/-- Store `v` at address `a`, in canonical form. -/
def memWrite {α : Type} [DecidableEq α] (d : Nat → α) (a : Nat) (v : α) (m : List (Nat × α)) :
    List (Nat × α) :=
  if v = d a then memErase a m else memInsert a v m

/-- Store `f a` at every address `a` below `n`, in canonical form: the writes of one bulk command, each
address once (log 11). -/
def memFill {α : Type} [DecidableEq α] (d : Nat → α) (n : Nat) (f : Nat → α) (m : List (Nat × α)) :
    List (Nat × α) :=
  ((List.range n).filterMap fun a => if f a = d a then none else some (a, f a)) ++ m.filter fun e => n ≤ e.1

/-- The canonical form: addresses strictly rising, no entry equal to what its address reads as unlisted. -/
def memWf {α : Type} [DecidableEq α] (d : Nat → α) (m : List (Nat × α)) : Bool :=
  decide (m.Pairwise fun e e' => e.1 < e'.1) && m.all fun e => decide (e.2 ≠ d e.1)

/-- Every listed address is below `n`. -/
def memBelow {α : Type} (n : Nat) (m : List (Nat × α)) : Bool := m.all fun e => decide (e.1 < n)

/-! ### Samples -/

/-- Slot `c` of a sample: the value of channel `c` (20_memory.md R82). -/
def slot (t : Sample) (c : Fin 4) : U16 :=
  match c with
  | 0 => t.c0
  | 1 => t.c1
  | 2 => t.c2
  | 3 => t.c3

/-- The sample whose slot `c` is `f c`. -/
def sampleOf (f : Fin 4 → U16) : Sample := ⟨f 0, f 1, f 2, f 3⟩

/-- The sample with `f c` in the slots below the channel count and 0 in the others (10_state.md R36). -/
def sampleOfChannels (chans : Nat) (f : Fin 4 → U16) : Sample :=
  sampleOf fun c => if c.val < chans then f c else 0

/-! ### The memories of a state -/

/-- The list behind a sample buffer. -/
def bufMem (b : Buf) (s : State) : List (Nat × Sample) :=
  match b with
  | .src => s.src
  | .mid => s.mid
  | .dst => s.dst

/-- The state with another list behind a sample buffer; the buffers are disjoint storage (20_memory.md R96). -/
def setBufMem (b : Buf) (m : List (Nat × Sample)) (s : State) : State :=
  match b with
  | .src => { s with src := m }
  | .mid => { s with mid := m }
  | .dst => { s with dst := m }

/-- `Cell(B, a)` (00_scope.md R11). -/
def cellRead (c : Config) (b : Buf) (s : State) (a : Nat) : Sample :=
  memRead (c.powerOnCell s.epoch b) (bufMem b s) a

/-- `Cell(B, a) <- t` (R11). -/
def cellWrite (c : Config) (b : Buf) (a : Nat) (t : Sample) (s : State) : State :=
  setBufMem b (memWrite (c.powerOnCell s.epoch b) a t (bufMem b s)) s

/-- `Cell(B, a) <- f a` for every `a` below `n`. -/
def cellFill (c : Config) (b : Buf) (n : Nat) (f : Nat → Sample) (s : State) : State :=
  setBufMem b (memFill (c.powerOnCell s.epoch b) n f (bufMem b s)) s

/-- `MemRead(BYT, a, 1)` (R11). -/
def byteRead (c : Config) (s : State) (a : Nat) : Byte := memRead (c.powerOnByte s.epoch) s.byt a

/-- `MemWrite(BYT, a, 1, v)` (R11). -/
def byteWrite (c : Config) (a : Nat) (v : Byte) (s : State) : State :=
  { s with byt := memWrite (c.powerOnByte s.epoch) a v s.byt }

/-- `MemWrite(BYT, a, 1, f a)` for every `a` below `n`. -/
def byteFill (c : Config) (n : Nat) (f : Nat → Byte) (s : State) : State :=
  { s with byt := memFill (c.powerOnByte s.epoch) n f s.byt }

/-! ### Taking a fault, and reset -/

/-- The causes of a fault (60_exceptions.md R301). -/
inductive Cause where
  | eCmd | eGeom | eFmt | eAlloc | eRefl | eNorm | eSeq
deriving DecidableEq, Repr, Inhabited

/-- The code `ERR` holds for a cause (R301). -/
def causeCode : Cause → BitVec 3
  | .eCmd => 1 | .eGeom => 2 | .eFmt => 3 | .eAlloc => 4 | .eRefl => 5 | .eNorm => 6 | .eSeq => 7

/-- `raise E_x(i0, i1)` (R313): the fault record is written, `FAULT` is set, nothing else changes. Both
words are taken modulo 2^32, so a negative one is stored in two's complement. -/
def raise (e : Cause) (i0 i1 : Int) (s : State) : State :=
  { s with err := causeCode e, info0 := BitVec.ofInt 32 i0, info1 := BitVec.ofInt 32 i1, fault := true }

/-- How a command body ends: `.ok s` when it runs to its end in state `s`, `.error s` when a `raise` ended it,
`s` being the state with the fault record written. Both are next states of the machine. -/
abbrev Ran := Except State State

/-- The outcome of a command: a next state, faulting or not (60_exceptions.md R300: a fault is recorded, and the
block goes on to discard words). -/
def finish (r : Ran) : Host.Outcome State Fault Refusal :=
  match r with
  | .ok s => .next s
  | .error s => .next s

/-- Assertion of `RST` (70_reset_and_hazards.md R340, R341): the reset state, with fresh unspecified memory
contents (log 9); what the host does next is not the block's to clear. -/
def assertReset (s : State) : State := { State.reset with epoch := s.epoch + 1, host := s.host }

end Sys2Proof.Machine
end

