-- ==== Sys2Proof/Machine/Flags.lean ====
section
/-! DEFINITION. The `STATUS` register (10_state.md R34): its word, and the ways the commands change its flags. -/

namespace Sys2Proof.Machine

/-- A flag as a number. -/
def flag (b : Bool) : Nat := if b then 1 else 0

/-- The `STATUS` word as the host reads it: bits 0 to 3 the four flags, bits 31:4 zero (R34). -/
def statusWord (s : State) : Word :=
  BitVec.ofNat 32 (flag s.fault + 2 * flag s.tabv + 4 * axisNum s.tabax + 8 * flag (s.tabmode = .shrink))

/-- `FAULT_OUT`, the block's one output: `STATUS.FAULT` at all times (60_exceptions.md R311). -/
def faultOut (s : State) : Bool := s.fault

/-- The table is no longer valid: `SET` of a configuration register, or a consuming PASS (R34). -/
def dropTable (s : State) : State := { s with tabv := false }

/-- The start of a BUILD (43_contribution_table.md R238): no valid table, the axis and the mode recorded. -/
def startTable (a : Axis) (shrink : Bool) (s : State) : State :=
  { s with tabv := false, tabax := a, tabmode := if shrink then .shrink else .enlarge }

/-- The end of a BUILD that succeeds (R238). -/
def completeTable (t : Table) (s : State) : State := { s with ctab := t, tabv := true }

end Sys2Proof.Machine
end

