-- ==== Sys2Proof/Machine/Operands.lean ====
section
/-! DEFINITION. Operand access: registers by number, buffer geometry (10_state.md R37), the periodic wrap and the
wrapped accessors (20_memory.md R81, R84, R85), the axis lengths of a build (43_contribution_table.md R230), and
the configuration check that precedes every command but SET (60_exceptions.md R302). -/

namespace Sys2Proof.Machine

/-- The value of a register of 30_encoding.md R126 as the host reads it.
DESIGN CHOICE (log 21): the spec gives the host port no width and no extension; every register is zero-extended to 32
bits, the coordinates `X` and `Y` too, so that -1 reads as 0x000FFFFF. -/
def regRead (r : Reg) (s : State) : Word :=
  match r with
  | .srcW => s.srcW.setWidth 32
  | .srcH => s.srcH.setWidth 32
  | .dstW => s.dstW.setWidth 32
  | .dstH => s.dstH.setWidth 32
  | .chans => s.chans.setWidth 32
  | .depth => s.depth.setWidth 32
  | .ksel => s.ksel.setWidth 32
  | .x => s.x.setWidth 32
  | .y => s.y.setWidth 32
  | .smp0 => s.smp.c0.setWidth 32
  | .smp1 => s.smp.c1.setWidth 32
  | .smp2 => s.smp.c2.setWidth 32
  | .smp3 => s.smp.c3.setWidth 32

/-- The register write of `SET` (40_config_and_pixelbuffer.md R161): all 20 bits unchecked for registers 0 to 8,
the low 16 bits for `SMP0` to `SMP3`. -/
def regWrite (r : Reg) (imm : Field20) (s : State) : State :=
  match r with
  | .srcW => { s with srcW := imm }
  | .srcH => { s with srcH := imm }
  | .dstW => { s with dstW := imm }
  | .dstH => { s with dstH := imm }
  | .chans => { s with chans := imm }
  | .depth => { s with depth := imm }
  | .ksel => { s with ksel := imm }
  | .x => { s with x := imm }
  | .y => { s with y := imm }
  | .smp0 => { s with smp.c0 := imm.setWidth 16 }
  | .smp1 => { s with smp.c1 := imm.setWidth 16 }
  | .smp2 => { s with smp.c2 := imm.setWidth 16 }
  | .smp3 => { s with smp.c3 := imm.setWidth 16 }

/-- A configuration register, number 0 to 6: writing it invalidates the table (R161). -/
def isConfigReg (r : Reg) : Bool := decide (regNum r ≤ 6)

/-- `W(B)` (10_state.md R37). -/
def bufW (b : Buf) (s : State) : Nat :=
  match b with
  | .src => s.srcW.toNat
  | .mid | .dst => s.dstW.toNat

/-- `H(B)` (R37). -/
def bufH (b : Buf) (s : State) : Nat :=
  match b with
  | .src | .mid => s.srcH.toNat
  | .dst => s.dstH.toNat

/-- The number of cells of the active extent of B, at addresses `0 .. W(B) * H(B) - 1` (R37). -/
def extent (b : Buf) (s : State) : Nat := bufW b s * bufH b s

/-- `Wrap(v, n)` for `n ≥ 1`: the residue of `v` modulo `n`, which the loops of 20_memory.md R84 compute. -/
def wrap (v : Int) (n : Nat) : Nat := (v % (n : Int)).toNat

/-- The linear address of the cell at wrapped coordinates (R81, R85). -/
def cellAddr (b : Buf) (x y : Int) (s : State) : Nat :=
  wrap y (bufH b s) * bufW b s + wrap x (bufW b s)

/-- A sample with its slots at and above `CHANS` replaced by 0 (R85; 10_state.md R36). -/
def maskChannels (s : State) (t : Sample) : Sample := sampleOfChannels s.chans.toNat (slot t)

/-- `BufGet(B, x, y)` (R85). -/
def bufGet (c : Config) (b : Buf) (x y : Int) (s : State) : Sample :=
  maskChannels s (cellRead c b s (cellAddr b x y s))

/-- `BufPut(B, x, y, t)` (R85). -/
def bufPut (c : Config) (b : Buf) (x y : Int) (t : Sample) (s : State) : State :=
  cellWrite c b (cellAddr b x y s) (maskChannels s t) s

/-- The destination axis length `nd` of a build (43_contribution_table.md R230, R238). -/
def axisDst (a : Axis) (s : State) : Nat :=
  match a with
  | .x => s.dstW.toNat
  | .y => s.dstH.toNat

/-- The source axis length `ns` of a build, also its boundary (R230, R238). -/
def axisSrc (a : Axis) (s : State) : Nat :=
  match a with
  | .x => s.srcW.toNat
  | .y => s.srcH.toNat

/-- The first fault `CheckCfg` meets, with its two information words, or none (60_exceptions.md R302). -/
def checkCfg (c : Config) (s : State) : Option (Cause × Int × Int) :=
  if s.srcW = 0 then some (.eGeom, 0, 0)
  else if s.srcH = 0 then some (.eGeom, 1, 0)
  else if s.dstW = 0 then some (.eGeom, 2, 0)
  else if s.dstH = 0 then some (.eGeom, 3, 0)
  else if ¬ (1 ≤ s.chans.toNat ∧ s.chans.toNat ≤ 4) then some (.eFmt, 4, s.chans.toNat)
  else if ¬ (s.depth.toNat = 8 ∨ s.depth.toNat = 16) then some (.eFmt, 5, s.depth.toNat)
  else if c.capBuf .src < extent .src s then some (.eAlloc, 0, 0)
  else if c.capBuf .mid < extent .mid s then some (.eAlloc, 1, 0)
  else if c.capBuf .dst < extent .dst s then some (.eAlloc, 2, 0)
  else none

/-- The prologue of every command but SET: run `CheckCfg`, then the command's own rule
(40_config_and_pixelbuffer.md R160, steps 3 and 4). -/
def checked (c : Config) (body : State → Ran) (s : State) : Ran :=
  match checkCfg c s with
  | some (e, i0, i1) => .error (raise e i0 i1 s)
  | none => body s

end Sys2Proof.Machine
end

