-- ==== Sys2Proof/Machine/Builder.lean ====
section
/-! DEFINITION. The contribution-table builder and BUILD (43_contribution_table.md). The algorithms are written over
`NUM` and the ROM read `K`, as the spec writes them; BUILD uses those of the chip. -/

namespace Sys2Proof.Machine

/-- The boundary map `BMap(j, b)`: a single reflection, about 0 below and about b - 1/2 above (R234). -/
def bmap (j b : Int) : Int :=
  if j < 0 then -j
  else if b ≤ j then (b - j) + b - 1
  else j

/-- The candidates `left .. right`, ascending; none when `right < left` (00_scope.md R8). -/
def candidates (left right : Int) : List Int :=
  (List.range (right + 1 - left).toNat).map fun (j : Nat) => left + (j : Int)

/-- Why a build stops, and where (R238). -/
inductive BuildStop where
  /-- `E_NORM(i, 0)`. -/
  | norm (i : Nat)
  /-- `E_REFL(i, k)`. -/
  | refl (i : Nat) (k : Int)
  /-- `E_ALLOC(3, i)`. -/
  | alloc (i : Nat)
deriving DecidableEq, Repr, Inhabited

section
variable {F : Type} (N : Num F) (K : Kernel → F → F)

/-- `scale = F.ofInt(nd) / F.ofInt(ns)` (R231). -/
def scaleOf (nd ns : Nat) : F := N.div (N.ofInt nd) (N.ofInt ns)

/-- The shrink path is taken: `scale < 1`; a 1:1 scale takes the enlarge path (R231). -/
def shrinks (nd ns : Nat) : Bool := N.lt (scaleOf N nd ns) (N.ofInt 1)

/-- The support, widened on the shrink path (R232, R233). -/
def esupOf (kid : Kernel) (nd ns : Nat) : F :=
  if shrinks N nd ns then N.div (N.ofRat (ksup kid)) (scaleOf N nd ns) else N.ofRat (ksup kid)

/-- `center = i / scale`, without a half-pixel offset (R232, R233). -/
def centerOf (nd ns i : Nat) : F := N.div (N.ofInt i) (scaleOf N nd ns)

/-- The candidates of destination index i (R232, R233). -/
def candidatesOf (kid : Kernel) (nd ns i : Nat) : List Int :=
  candidates (N.ceil (N.sub (centerOf N nd ns i) (esupOf N kid nd ns)))
    (N.floor (N.add (centerOf N nd ns i) (esupOf N kid nd ns)))

/-- The argument handed to the kernel for candidate k: the distance, on the shrink path scaled back into the
kernel's own units (R232, R233). -/
def kernelArg (nd ns i : Nat) (k : Int) : F :=
  let d := N.sub (centerOf N nd ns i) (N.ofInt k)
  if shrinks N nd ns then N.mul d (scaleOf N nd ns) else d

/-- The running `total` of the shrink path, in ascending order of the candidates (R232). -/
def totalOf (kid : Kernel) (nd ns i : Nat) : F :=
  (candidatesOf N kid nd ns i).foldl (fun t k => N.add t (K kid (kernelArg N nd ns i k))) (N.ofInt 0)

/-- The weight emitted for candidate k: normalised by `total` on the shrink path, raw on the enlarge path
(R232, R233). -/
def weightOf (kid : Kernel) (nd ns i : Nat) (total : F) (k : Int) : F :=
  let w := K kid (kernelArg N nd ns i k)
  if shrinks N nd ns then N.div w total else w

/-- The total that stops the shrink path: zero, or not finite (R236). -/
def badTotal (t : F) : Bool := N.eq t (N.ofInt 0) || !N.finite t

/-- The emission loop of one destination index, `count` pairs being in the table already: per candidate the
reflection test, then the capacity test, then the pair (R235, R237, R238). -/
def emitPairs (ns cap i : Nat) (weight : Int → F) : List Int → Nat → Except BuildStop (List (Int × F))
  | [], _ => .ok []
  | k :: ks, count =>
    if bmap k ns < 0 ∨ (ns : Int) ≤ bmap k ns then .error (.refl i k)
    else if count = cap then .error (.alloc i)
    else match emitPairs ns cap i weight ks (count + 1) with
      | .error e => .error e
      | .ok l => .ok ((bmap k ns, weight k) :: l)

/-- The list of one destination index (R238).
DESIGN CHOICE (log 22): where the shrink path has no candidate at all the total is 0, and the rules say two things: the
pseudocode and R236 raise `E_NORM`, R238's corner case gives an empty list and no fault. The pseudocode is followed.
This cannot occur in `NUM_Q` (R239 (a)), so never in the machine. -/
def buildRow (kid : Kernel) (nd ns cap i count : Nat) : Except BuildStop (List (Int × F)) :=
  if shrinks N nd ns && badTotal N (totalOf N K kid nd ns i) then .error (.norm i)
  else
    emitPairs ns cap i (weightOf N K kid nd ns i (totalOf N K kid nd ns i)) (candidatesOf N kid nd ns i) count

/-- The lists of the destination indices `is`, `count` pairs being in the table already. -/
def buildRows (kid : Kernel) (nd ns cap : Nat) : List Nat → Nat → Except BuildStop (TableOf F)
  | [], _ => .ok []
  | i :: is, count =>
    match buildRow N K kid nd ns cap i count with
    | .error e => .error e
    | .ok l =>
      match buildRows kid nd ns cap is (count + l.length) with
      | .error e => .error e
      | .ok t => .ok (l :: t)

/-- The table of a kernel and two axis lengths, or the first fault the algorithm meets (R230, R237, R238): a
function of these, `NUM`, `KROM` and the capacity alone. -/
def buildTable (kid : Kernel) (nd ns cap : Nat) : Except BuildStop (TableOf F) :=
  buildRows N K kid nd ns cap (List.range nd) 0

end

/-- The fault a stopped build raises (60_exceptions.md R301). -/
def raiseStop (e : BuildStop) (s : State) : State :=
  match e with
  | .norm i => raise .eNorm i 0 s
  | .refl i k => raise .eRefl i k s
  | .alloc i => raise .eAlloc 3 i s

/-- The table the configuration of `s` asks for on axis `a`, with the chip's number system, ROM and capacity. -/
def axisTable (c : Config) (a : Axis) (s : State) : Except BuildStop Table :=
  buildTable c.num c.krom (kDecode s.ksel) (axisDst a s) (axisSrc a s) c.capTab

/-- The configuration of `s` takes the shrink path on axis `a`. -/
def axisShrinks (c : Config) (a : Axis) (s : State) : Bool := shrinks c.num (axisDst a s) (axisSrc a s)

/-- The body of `BUILD a`: the flags are written first, the table only at a successful end (R238). -/
def buildBody (c : Config) (a : Axis) (s : State) : Ran :=
  match axisTable c a s with
  | .error e => .error (raiseStop e (startTable a (axisShrinks c a s) s))
  | .ok t => .ok (completeTable t (startTable a (axisShrinks c a s) s))

/-- `BUILD axis` (R238). -/
def execBuild (a : Axis) (s : State) : Host.Outcome State Fault Refusal :=
  finish (checked Config.chip (buildBody Config.chip a) s)

end Sys2Proof.Machine
end

