-- ==== Sys2Proof/Machine/ByteConversion.lean ====
section
/-! DEFINITION. The byte conversion commands UNPACK and PACK (41_byte_conversion.md) and the stream layout of `BYT`
(20_memory.md R87). -/

namespace Sys2Proof.Machine

/-- `Dec8(b) = 257 * b` (R191). -/
def dec8 (b : Byte) : U16 := BitVec.ofNat 16 (257 * b.toNat)

/-- `Dec16(hi, lo) = hi * 256 + lo` (R192). -/
def dec16 (hi lo : Byte) : U16 := BitVec.ofNat 16 (hi.toNat * 256 + lo.toNat)

/-- `Enc8(v) = (v + 128) div 257` (R194). -/
def enc8 (v : U16) : Byte := BitVec.ofNat 8 ((v.toNat + 128) / 257)

/-- `Enc16(v) = (v div 256, v mod 256)`, the first for the lower address (R195). -/
def enc16 (v : U16) : Byte × Byte := (BitVec.ofNat 8 (v.toNat / 256), BitVec.ofNat 8 (v.toNat % 256))

/-- `NS(B)`, the number of samples in the stream of B (R190). -/
def streamSamples (b : Buf) (s : State) : Nat := extent b s * s.chans.toNat

/-- `NB(B)`, the number of bytes in the stream of B (R190). -/
def streamBytes (b : Buf) (s : State) : Nat := streamSamples b s * (s.depth.toNat / 8)

/-- Sample number `n` of the stream in `BYT`: one byte at 8 bits, a big-endian pair at 16 bits (R193; R87). -/
def streamSample (c : Config) (s : State) (n : Nat) : U16 :=
  if s.depth.toNat = 8 then dec8 (byteRead c s n)
  else dec16 (byteRead c s (2 * n)) (byteRead c s (2 * n + 1))

/-- The cell UNPACK makes for pixel number `p`: channels consecutive in channel order (R193). -/
def unpackedCell (c : Config) (s : State) (p : Nat) : Sample :=
  sampleOfChannels s.chans.toNat fun ch => streamSample c s (p * s.chans.toNat + ch.val)

/-- Channel `n mod 4` of a sample, for a channel number below 4. -/
def channelOf (t : Sample) (n : Nat) : U16 := slot t (Fin.ofNat 4 n)

/-- The value of sample number `n` of the stream of B: pixel `n div CHANS`, channel `n mod CHANS` (R87). -/
def bufferSample (c : Config) (b : Buf) (s : State) (n : Nat) : U16 :=
  channelOf (cellRead c b s (n / s.chans.toNat)) (n % s.chans.toNat)

/-- The byte PACK stores at address `a`: sample `a` at 8 bits; at 16 bits the high byte of sample `a div 2` at an
even address and its low byte at the odd one after it (R196; R87). -/
def packedByte (c : Config) (b : Buf) (s : State) (a : Nat) : Byte :=
  if s.depth.toNat = 8 then enc8 (bufferSample c b s a)
  else if a % 2 = 0 then (enc16 (bufferSample c b s (a / 2))).1
  else (enc16 (bufferSample c b s (a / 2))).2

/-- Run a conversion if the stream of B fits `BYT`, else `E_ALLOC(4, 0)` before any access (R190). -/
def ifStreamFits (c : Config) (b : Buf) (s t : State) : Ran :=
  if c.capByt < streamBytes b s then .error (raise .eAlloc 4 0 s) else .ok t

/-- The body of `UNPACK buf` (R193). -/
def unpackBody (c : Config) (b : Buf) (s : State) : Ran :=
  ifStreamFits c b s (cellFill c b (extent b s) (unpackedCell c s) s)

/-- The body of `PACK buf` (R196). -/
def packBody (c : Config) (b : Buf) (s : State) : Ran :=
  ifStreamFits c b s (byteFill c (streamBytes b s) (packedByte c b s) s)

/-- `UNPACK buf` (R193). -/
def execUnpack (b : Buf) (s : State) : Host.Outcome State Fault Refusal :=
  finish (checked Config.chip (unpackBody Config.chip b) s)

/-- `PACK buf` (R196). -/
def execPack (b : Buf) (s : State) : Host.Outcome State Fault Refusal :=
  finish (checked Config.chip (packBody Config.chip b) s)

end Sys2Proof.Machine
end

