-- ==== Sys2Proof/Machine/PixelBuffer.lean ====
section
/-! DEFINITION. The configuration and PixelBuffer commands SET, CLR, GET, PUT (40_config_and_pixelbuffer.md). -/

namespace Sys2Proof.Machine

/-- The body of `SET reg, imm`: the register, and the table dropped for registers 0 to 6 (R161). -/
def setBody (r : Reg) (imm : Field20) (s : State) : State :=
  if isConfigReg r then dropTable (regWrite r imm s) else regWrite r imm s

/-- The body of `CLR buf`: every cell of the active extent becomes zero (R162). -/
def clrBody (c : Config) (b : Buf) (s : State) : Ran :=
  .ok (cellFill c b (extent b s) (fun _ => ⟨0, 0, 0, 0⟩) s)

/-- The body of `GET buf`: the wrapped read at (X, Y) into the sample registers (R163). -/
def getBody (c : Config) (b : Buf) (s : State) : Ran :=
  .ok { s with smp := bufGet c b s.x.toInt s.y.toInt s }

/-- The body of `PUT buf`: the wrapped write of the sample registers at (X, Y) (R164). -/
def putBody (c : Config) (b : Buf) (s : State) : Ran :=
  .ok (bufPut c b s.x.toInt s.y.toInt s.smp s)

/-- `SET reg, imm` (R161): it runs no configuration check (R160 step 3). -/
def execSet (r : Reg) (imm : Field20) (s : State) : Host.Outcome State Fault Refusal :=
  finish (.ok (setBody r imm s))

/-- `CLR buf` (R162). -/
def execClr (b : Buf) (s : State) : Host.Outcome State Fault Refusal :=
  finish (checked Config.chip (clrBody Config.chip b) s)

/-- `GET buf` (R163). -/
def execGet (b : Buf) (s : State) : Host.Outcome State Fault Refusal :=
  finish (checked Config.chip (getBody Config.chip b) s)

/-- `PUT buf` (R164). -/
def execPut (b : Buf) (s : State) : Host.Outcome State Fault Refusal :=
  finish (checked Config.chip (putBody Config.chip b) s)

end Sys2Proof.Machine
end

