-- ==== Sys2Proof/Machine/Resampler.lean ====
section
/-! DEFINITION. The multiply-accumulate pipeline, the two passes, PASS and RESIZE (44_separable_resampler.md). -/

namespace Sys2Proof.Machine

/-- `Mac(L, fetch, c)` for one channel, `fetch` giving that channel's value at a stored index: list order, from
zero, one product and one addition per pair, neither clamped nor rounded between terms (R260). -/
def mac {F : Type} (N : Num F) (fetch : Int → U16) (l : List (Int × F)) : F :=
  l.foldl (fun acc p => N.add acc (N.mul p.2 (N.ofInt (fetch p.1).toNat))) (N.ofInt 0)

/-- One output pixel: each channel below `CHANS` is the clamped and rounded sum over the same list, channel by
channel; the slots above are 0 (R263, R264, R268). -/
def convolve (c : Config) (chans : Nat) (fetch : Int → Sample) (l : List (Int × Rat)) : Sample :=
  sampleOfChannels chans fun ch => c.num.clampRound (mac c.num (fun n => slot (fetch n) ch) l)

/-- `TAB[i]` (00_scope.md R11); beyond the last list there is none, and a valid table is never asked (log 14). -/
def tabRow (s : State) (i : Nat) : List (Int × Rat) := s.ctab.getD i []

/-- The `MID` cell the X pass writes at column i, row k (R263). -/
def passXPixel (c : Config) (s : State) (i k : Nat) : Sample :=
  convolve c s.chans.toNat (fun n => bufGet c .src n k s) (tabRow s i)

/-- The `DST` cell the Y pass writes at column k, row i (R264). -/
def passYPixel (c : Config) (s : State) (k i : Nat) : Sample :=
  convolve c s.chans.toNat (fun n => bufGet c .mid k n s) (tabRow s i)

/-- `PassX()`: every cell of the active extent of `MID`, at address `k * DST_W + i` (R263). -/
def passX (c : Config) (s : State) : State :=
  cellFill c .mid (extent .mid s) (fun a => passXPixel c s (a % s.dstW.toNat) (a / s.dstW.toNat)) s

/-- `PassY()`: every cell of the active extent of `DST`, at address `i * DST_W + k` (R264). -/
def passY (c : Config) (s : State) : State :=
  cellFill c .dst (extent .dst s) (fun a => passYPixel c s (a % s.dstW.toNat) (a / s.dstW.toNat)) s

/-- The pass of an axis. -/
def passAxis (c : Config) (a : Axis) (s : State) : State :=
  match a with
  | .x => passX c s
  | .y => passY c s

/-- The body of `PASS a`, `w` being the command word: `E_SEQ(w, 0)` without a valid table of the axis, else the
pass, which consumes the table (R265). -/
def passBody (c : Config) (w : Word) (a : Axis) (s : State) : Ran :=
  if s.tabv = false ∨ s.tabax ≠ a then .error (raise .eSeq w.toNat 0 s)
  else .ok (dropTable (passAxis c a s))

/-- The body of `RESIZE`: BUILD X, PASS X, BUILD Y, PASS Y, ending at the first `raise` (R266). -/
def resizeBody (c : Config) (s : State) : Ran :=
  match buildBody c .x s with
  | .error e => .error e
  | .ok s1 =>
    match passBody c (encode .resize) .x s1 with
    | .error e => .error e
    | .ok s2 =>
      match buildBody c .y s2 with
      | .error e => .error e
      | .ok s3 => passBody c (encode .resize) .y s3

/-- `PASS axis` (R265). -/
def execPass (a : Axis) (s : State) : Host.Outcome State Fault Refusal :=
  finish (checked Config.chip (passBody Config.chip (encode (.pass a)) a) s)

/-- `RESIZE` (R266). -/
def execResize (s : State) : Host.Outcome State Fault Refusal :=
  finish (checked Config.chip (resizeBody Config.chip) s)

end Sys2Proof.Machine
end

