-- ==== Sys2Proof/Machine/Dispatch.lean ====
section
/-! DEFINITION. The dispatch of a decoded command to its meaning: steps 3 and 4 of 40_config_and_pixelbuffer.md R160. -/

namespace Sys2Proof.Machine

def exec (i : Instr) (s : State) : Host.Outcome State Fault Refusal :=
  match i with
  | .set reg imm => Sys2Proof.Machine.execSet reg imm s
  | .clr buf => Sys2Proof.Machine.execClr buf s
  | .get buf => Sys2Proof.Machine.execGet buf s
  | .put buf => Sys2Proof.Machine.execPut buf s
  | .unpack buf => Sys2Proof.Machine.execUnpack buf s
  | .pack buf => Sys2Proof.Machine.execPack buf s
  | .build axis => Sys2Proof.Machine.execBuild axis s
  | .pass axis => Sys2Proof.Machine.execPass axis s
  | .resize => Sys2Proof.Machine.execResize s

end Sys2Proof.Machine
end

