-- ==== Sys2Proof/Machine/Sequencer.lean ====
section
/-! DEFINITION. The sequencer: the prologue of every command word (40_config_and_pixelbuffer.md R160), the host's
actions between steps (20_memory.md R90), and the queue that feeds them (10_state.md R44; log 7).

It is written over the parameters of the chip and the meaning of the commands, so that the same text gives the
machine (`Config.chip` and `exec`, Machine/Step.lean) and, for tests, the model with its parameters as arguments
(00_scope.md R6; `stepWith` below). -/

namespace Sys2Proof.Machine

/-- `Step(w)` of R160: in the fault state the word is discarded (60_exceptions.md R314), an illegal word raises
`E_CMD(w, 0)`, any other word runs. -/
def presentWord (run : Instr → State → Host.Outcome State Fault Refusal) (w : Word) (s : State) :
    Host.Outcome State Fault Refusal :=
  if s.fault = true then .next s
  else match decode w with
    | .error _ => .next (raise .eCmd w.toNat 0 s)
    | .ok i => run i s

/-- A host write of a cell: ignored while `FAULT = 1` (20_memory.md R90); no cell exists at or above the
capacity (R83; log 8). -/
def hostWriteCell (c : Config) (b : Buf) (a : Nat) (t : Sample) (s : State) :
    Host.Outcome State Fault Refusal :=
  if s.fault = true then .next s
  else if a < c.capBuf b then .next (cellWrite c b a t s)
  else .fault (.noSuchCell b a)

/-- A host write of a byte: ignored while `FAULT = 1` (R90); no byte exists at or above `CAP_BYT`. -/
def hostWriteByte (c : Config) (a : Nat) (v : Byte) (s : State) : Host.Outcome State Fault Refusal :=
  if s.fault = true then .next s
  else if a < c.capByt then .next (byteWrite c a v s)
  else .fault (.noSuchByte a)

/-- One action of the host. -/
def hostAction (c : Config) (run : Instr → State → Host.Outcome State Fault Refusal) (h : HostAction)
    (s : State) : Host.Outcome State Fault Refusal :=
  match h with
  | .command w => presentWord run w s
  | .writeCell b a t => hostWriteCell c b a t s
  | .writeByte a v => hostWriteByte c a v s
  | .reset => .next (assertReset s)

/-- Take the host's next action; with none, the block waits, and waiting loses no state (60_exceptions.md R318). -/
def sequencer (c : Config) (run : Instr → State → Host.Outcome State Fault Refusal) (s : State) :
    Host.Outcome State Fault Refusal :=
  match s.host with
  | [] => .next s
  | h :: rest => hostAction c run h { s with host := rest }

/-- Steps 3 and 4 of R160 on a chip with parameters `c`: `exec` with the parameters as an argument. -/
def runWith (c : Config) (i : Instr) (s : State) : Ran :=
  match i with
  | .set r imm => .ok (setBody r imm s)
  | .clr b => checked c (clrBody c b) s
  | .get b => checked c (getBody c b) s
  | .put b => checked c (putBody c b) s
  | .unpack b => checked c (unpackBody c b) s
  | .pack b => checked c (packBody c b) s
  | .build a => checked c (buildBody c a) s
  | .pass a => checked c (passBody c (encode (.pass a)) a) s
  | .resize => checked c (resizeBody c) s

/-- `step` with the chip's parameters as an argument. -/
def stepWith (c : Config) (s : State) : Host.Outcome State Fault Refusal :=
  sequencer c (fun i t => finish (runWith c i t)) s

end Sys2Proof.Machine
end

