-- ==== Sys2Proof/Machine/Step.lean ====
section
/-! DEFINITION. The step of the machine: one action of the host, a command word among them (00_scope.md R12). -/

namespace Sys2Proof.Machine

/-- One step: the sequencer on the chip, with `exec` for the commands. -/
def step (s : State) : Host.Outcome State Fault Refusal := sequencer Config.chip exec s

/-- `s` with the host about to present the command word `w`, numbered as spec/opcode_table.json numbers it
(log 7): the next step runs it. -/
def State.withFetchWord (s : State) (nbits w : Nat) : State :=
  { s with host := .command (BitVec.ofNat 32 (w % 2 ^ nbits)) :: s.host }

end Sys2Proof.Machine
end

