-- ==== Sys2Proof/Machine/HostPort.lean ====
section
/-! DEFINITION. What the host reads between steps (20_memory.md R90 (b), (c)); no read has a side effect (R89). -/

namespace Sys2Proof.Machine

/-- A register the host can read: 10_state.md R31 to R35. -/
inductive HostReg where
  | reg (r : Reg)
  | status | err | info0 | info1
deriving DecidableEq, Repr

/-- A host read of a register. DESIGN CHOICE (log 21): zero-extended to 32 bits, `X`, `Y` and `ERR` too. -/
def hostReg (r : HostReg) (s : State) : Word :=
  match r with
  | .reg r => regRead r s
  | .status => statusWord s
  | .err => s.err.setWidth 32
  | .info0 => s.info0
  | .info1 => s.info1

/-- A host read of a cell; none at or above the capacity, where no cell exists. -/
def hostCell (c : Config) (b : Buf) (a : Nat) (s : State) : Option Sample :=
  if a < c.capBuf b then some (cellRead c b s a) else none

/-- A host read of a byte of `BYT`. -/
def hostByte (c : Config) (a : Nat) (s : State) : Option Byte :=
  if a < c.capByt then some (byteRead c s a) else none

/-- A host read of `CTAB`: the table while `TABV = 1`, an unspecified table otherwise
(10_state.md R39; 93_implementation_defined.md U4; log 6). -/
def hostTable (c : Config) (s : State) : Table :=
  if s.tabv = true then s.ctab else c.staleTable s.epoch s.ctab

end Sys2Proof.Machine
end

