-- ==== Sys2Proof/Safety.lean ====
section
/-! DEFINITION. What counts as a legal configuration, a buildable table, a sound state and a finished run: the terms
the claims are stated in. -/

namespace Sys2Proof.Machine

/-- The configuration every command but SET asks for (60_exceptions.md R302; 10_state.md R31; 20_memory.md R97). -/
structure ConfigLegal (c : Config) (s : State) : Prop where
  srcW : s.srcW ≠ 0
  srcH : s.srcH ≠ 0
  dstW : s.dstW ≠ 0
  dstH : s.dstH ≠ 0
  chans : s.chans = 1 ∨ s.chans = 2 ∨ s.chans = 3 ∨ s.chans = 4
  depth : s.depth = 8 ∨ s.depth = 16
  fitsSrc : s.srcW.toNat * s.srcH.toNat ≤ c.capBuf .src
  fitsMid : s.dstW.toNat * s.srcH.toNat ≤ c.capBuf .mid
  fitsDst : s.dstW.toNat * s.dstH.toNat ≤ c.capBuf .dst

/-- `FAULT` is 1 exactly when `ERR` is not 0 (10_state.md R34), and without a fault the record is 0
(60_exceptions.md R301). -/
def FaultRecordSound (s : State) : Prop :=
  (s.fault = true ↔ s.err ≠ 0) ∧ (s.fault = false → s.info0 = 0 ∧ s.info1 = 0)

/-- Every memory is in canonical form (log 10). -/
def MemoriesCanonical (c : Config) (s : State) : Prop :=
  memWf (c.powerOnCell s.epoch .src) s.src = true ∧ memWf (c.powerOnCell s.epoch .mid) s.mid = true ∧
    memWf (c.powerOnCell s.epoch .dst) s.dst = true ∧ memWf (c.powerOnByte s.epoch) s.byt = true

/-- Nothing is ever stored at an address a memory does not have (20_memory.md R83). -/
def MemoriesInBounds (c : Config) (s : State) : Prop :=
  memBelow (c.capBuf .src) s.src = true ∧ memBelow (c.capBuf .mid) s.mid = true ∧
    memBelow (c.capBuf .dst) s.dst = true ∧ memBelow c.capByt s.byt = true

/-- While `TABV` is 1 the configuration is legal and `CTAB` holds the complete table of axis `TABAX` for the
current values of registers 0 to 6, built in mode `TABMODE` (10_state.md R34; 43_contribution_table.md R241). -/
def TableSound (c : Config) (s : State) : Prop :=
  s.tabv = true →
    ConfigLegal c s ∧ axisTable c s.tabax s = .ok s.ctab ∧
      s.tabmode = if axisShrinks c s.tabax s then .shrink else .enlarge

/-- The states the block can be in. -/
structure Sound (c : Config) (s : State) : Prop where
  faultRecord : FaultRecordSound s
  canonical : MemoriesCanonical c s
  inBounds : MemoriesInBounds c s
  table : TableSound c s

/-- The run has produced its result: the host has nothing more to present and no fault was raised; a faulted
block is never finished (60_exceptions.md R314). -/
def Finished (s : State) : Prop := s.host = [] ∧ s.fault = false

end Sys2Proof.Machine
end

