-- ==== Sys2Proof/Certificates/Slice0/Obligations.lean ====
section
/-! DEFINITION. The statements for the provers. First the vocabulary of the claims about tables and pixels, written
out over the rationals as the rules of the spec give them (not by the machine's own functions); then the
obligations. Nothing is known of `Config.chip` but that its number system is `NUM_Q` and its ROM meets the contract: a
statement about `exec` or `step` holds for whatever capacities, ROM and power-on contents it has. Statements over every
`c : Config` speak of `runWith c`, the model with its parameters, `NUM` among them, as arguments (00_scope.md R6); those
about exact weights and sums take `c.num = numQ` (93_implementation_defined.md U6; log 1). -/

namespace Sys2Proof.Spec
open Sys2Proof.Machine

/-! ### Contribution tables (43_contribution_table.md), over the rationals -/

/-- `scale` (R231). -/
def scale (nd ns : Nat) : Rat := (nd : Rat) / (ns : Rat)

/-- The support, widened when `scale < 1` (R232, R233). -/
def esup (kid : Kernel) (nd ns : Nat) : Rat := if scale nd ns < 1 then ksup kid / scale nd ns else ksup kid

/-- `center = i / scale` (R232, R233). -/
def center (nd ns i : Nat) : Rat := (i : Rat) / scale nd ns

/-- The first candidate (R232, R233). -/
def left (kid : Kernel) (nd ns i : Nat) : Int := ⌈center nd ns i - esup kid nd ns⌉

/-- The last candidate (R232, R233). -/
def right (kid : Kernel) (nd ns i : Nat) : Int := ⌊center nd ns i + esup kid nd ns⌋

/-- The integers from `left` to `right`, ascending. -/
def cands (kid : Kernel) (nd ns i : Nat) : List Int := candidates (left kid nd ns i) (right kid nd ns i)

/-- The argument handed to the kernel (R232, R233). -/
def arg (nd ns i : Nat) (k : Int) : Rat :=
  if scale nd ns < 1 then (center nd ns i - (k : Rat)) * scale nd ns else center nd ns i - (k : Rat)

/-- The sum of the kernel values of destination index i (R232). -/
def total (K : Kernel → Rat → Rat) (kid : Kernel) (nd ns i : Nat) : Rat :=
  ((cands kid nd ns i).map fun k => K kid (arg nd ns i k)).sum

/-- The weight of candidate k (R232, R233). -/
def weight (K : Kernel → Rat → Rat) (kid : Kernel) (nd ns i : Nat) (k : Int) : Rat :=
  if scale nd ns < 1 then K kid (arg nd ns i k) / total K kid nd ns i else K kid (arg nd ns i k)

/-- The list of destination index i: every candidate, in ascending order, with its mapped index (R237). -/
def row (K : Kernel → Rat → Rat) (kid : Kernel) (nd ns i : Nat) : List (Int × Rat) :=
  (cands kid nd ns i).map fun k => (bmap k ns, weight K kid nd ns i k)

/-- The number of pairs of the destination indices below n. -/
def pairsBelow (kid : Kernel) (nd ns n : Nat) : Nat :=
  ((List.range n).map fun i => (cands kid nd ns i).length).sum

/-- The mapped index of k lies inside the source axis (R235). -/
def Inside (ns : Nat) (k : Int) : Prop := 0 ≤ bmap k ns ∧ bmap k ns < ns

/-- Destination index i raises no `E_NORM` (R236). -/
def TotalOk (K : Kernel → Rat → Rat) (kid : Kernel) (nd ns i : Nat) : Prop :=
  scale nd ns < 1 → total K kid nd ns i ≠ 0

/-- Destination index i raises neither `E_NORM` nor `E_REFL` (R235, R236). -/
def RowOk (K : Kernel → Rat → Rat) (kid : Kernel) (nd ns i : Nat) : Prop :=
  TotalOk K kid nd ns i ∧ ∀ k ∈ cands kid nd ns i, Inside ns k

/-- In `NUM_Q` the build of axis a raises nothing: every index is good and the pairs fit `CAP_TAB` (R238). -/
def Buildable (c : Config) (a : Axis) (s : State) : Prop :=
  (∀ i < axisDst a s, RowOk c.krom (kDecode s.ksel) (axisDst a s) (axisSrc a s) i) ∧
    pairsBelow (kDecode s.ksel) (axisDst a s) (axisSrc a s) (axisDst a s) ≤ c.capTab

/-- The table of axis a for the configuration of s, in `NUM_Q`. -/
def table (c : Config) (a : Axis) (s : State) : Table :=
  (List.range (axisDst a s)).map (row c.krom (kDecode s.ksel) (axisDst a s) (axisSrc a s))

/-- The mode of axis a for the configuration of s: shrink exactly when `scale < 1` (R231; 10_state.md R34). -/
def mode (a : Axis) (s : State) : TabMode := if scale (axisDst a s) (axisSrc a s) < 1 then .shrink else .enlarge

/-! ### Commands: what holds of the state after them -/

/-- Nothing but the contents of the three sample buffers differs. -/
def OnlyBuffers (s t : State) : Prop := t = { s with src := t.src, mid := t.mid, dst := t.dst }

/-- Every cell of every buffer but b reads as before. -/
def OtherBuffersKept (c : Config) (b : Buf) (s t : State) : Prop :=
  ∀ b' a, b' ≠ b → cellRead c b' t a = cellRead c b' s a

/-- The cells of b outside its active extent read as before. -/
def OutsideExtentKept (c : Config) (b : Buf) (s t : State) : Prop :=
  ∀ a, bufW b s * bufH b s ≤ a → cellRead c b t a = cellRead c b s a

/-- After `CLR b` (40_config_and_pixelbuffer.md R162). -/
def ClrDone (c : Config) (b : Buf) (s t : State) : Prop :=
  (∀ a < bufW b s * bufH b s, cellRead c b t a = ⟨0, 0, 0, 0⟩) ∧ OutsideExtentKept c b s t ∧
    OtherBuffersKept c b s t ∧ OnlyBuffers s t

/-- The address of the wrapped coordinates (X, Y) (20_memory.md R81, R84). -/
def addrXY (b : Buf) (s : State) : Nat :=
  (s.y.toInt % (bufH b s : Int)).toNat * bufW b s + (s.x.toInt % (bufW b s : Int)).toNat

/-- After `GET b`: the sample registers, and nothing else, changed (R163). -/
def GetDone (c : Config) (b : Buf) (s t : State) : Prop :=
  (∀ ch, slot t.smp ch = if ch.val < s.chans.toNat then slot (cellRead c b s (addrXY b s)) ch else 0) ∧
    t = { s with smp := t.smp }

/-- After `PUT b`: exactly one cell changed (R164). -/
def PutDone (c : Config) (b : Buf) (s t : State) : Prop :=
  (∀ ch, slot (cellRead c b t (addrXY b s)) ch = if ch.val < s.chans.toNat then slot s.smp ch else 0) ∧
    (∀ a, a ≠ addrXY b s → cellRead c b t a = cellRead c b s a) ∧ OtherBuffersKept c b s t ∧ OnlyBuffers s t

/-- `NB(B)` (41_byte_conversion.md R190). -/
def bytesOf (b : Buf) (s : State) : Nat :=
  bufW b s * bufH b s * s.chans.toNat * (if s.depth = 8 then 1 else 2)

/-- Sample number n of the stream, as a number (R87, R191, R192). -/
def streamValue (c : Config) (s : State) (n : Nat) : Nat :=
  if s.depth = 8 then 257 * (byteRead c s n).toNat
  else (byteRead c s (2 * n)).toNat * 256 + (byteRead c s (2 * n + 1)).toNat

/-- After `UNPACK b` (R193). -/
def UnpackDone (c : Config) (b : Buf) (s t : State) : Prop :=
  (∀ p < bufW b s * bufH b s, ∀ ch : Fin 4,
      (slot (cellRead c b t p) ch).toNat =
        if ch.val < s.chans.toNat then streamValue c s (p * s.chans.toNat + ch.val) else 0) ∧
    OutsideExtentKept c b s t ∧ OtherBuffersKept c b s t ∧ OnlyBuffers s t

/-- After `PACK b` (R196). -/
def PackDone (c : Config) (b : Buf) (s t : State) : Prop :=
  (∀ p < bufW b s * bufH b s, ∀ ch : Fin 4, ch.val < s.chans.toNat →
      let v := (slot (cellRead c b s p) ch).toNat
      let n := p * s.chans.toNat + ch.val
      (s.depth = 8 → (byteRead c t n).toNat = (v + 128) / 257) ∧
        (s.depth = 16 → (byteRead c t (2 * n)).toNat = v / 256 ∧ (byteRead c t (2 * n + 1)).toNat = v % 256)) ∧
    (∀ a, bytesOf b s ≤ a → byteRead c t a = byteRead c s a) ∧ t = { s with byt := t.byt }

/-- The weighted sum of one output channel over the list of a destination index, `fetch` giving the input sample at
a stored index (44_separable_resampler.md R260). -/
def acc (l : List (Int × Rat)) (fetch : Int → Sample) (ch : Fin 4) : Rat :=
  (l.map fun p => p.2 * ((slot (fetch p.1) ch).toNat : Rat)).sum

/-- `n` is the integer nearest to `a` clamped to [0, 65535], ties upward (R261). -/
def NearestClamped (a : Rat) (n : Nat) : Prop :=
  (n : Rat) - 1 / 2 ≤ min (max a 0) 65535 ∧ min (max a 0) 65535 < (n : Rat) + 1 / 2

/-- The cell `o` is the output pixel of list `l` (R263, R264). -/
def IsPixel (s : State) (l : List (Int × Rat)) (fetch : Int → Sample) (o : Sample) : Prop :=
  ∀ ch : Fin 4,
    (ch.val < s.chans.toNat → NearestClamped (acc l fetch ch) (slot o ch).toNat) ∧
      (s.chans.toNat ≤ ch.val → slot o ch = 0)

/-- The contract of the ROM in `NUM_Q` (42_kernel_bank.md R212 (c), (d), (e)); clause (e) as log 2 reads it. -/
def RomContract (K : Kernel → Rat → Rat) : Prop :=
  ∀ (k : Kernel) (t : Rat),
    (t < -ksup k ∨ ksup k < t → K k t = 0) ∧ (|t| ≠ ksup k → K k (-t) = K k t) ∧ K k t ≤ K k 0

/-- `MID` in t is the X pass, with table T, over the `SRC` of s (R263). -/
def MidIsXPass (c : Config) (T : Table) (s t : State) : Prop :=
  ∀ i < s.dstW.toNat, ∀ k < s.srcH.toNat,
    IsPixel s (T.getD i []) (fun n => bufGet c .src n k s) (cellRead c .mid t (k * s.dstW.toNat + i))

/-- `DST` in t is the Y pass, with table T, over the `MID` of m (R264). -/
def DstIsYPass (c : Config) (T : Table) (m t : State) : Prop :=
  ∀ k < m.dstW.toNat, ∀ i < m.dstH.toNat,
    IsPixel m (T.getD i []) (fun n => bufGet c .mid k n m) (cellRead c .dst t (i * m.dstW.toNat + k))

/-- After `PASS X`: `MID` is the pass, the table is consumed, nothing else changed (R263, R265). -/
def PassXDone (c : Config) (s t : State) : Prop :=
  MidIsXPass c s.ctab s t ∧ OutsideExtentKept c .mid s t ∧ t = { s with mid := t.mid, tabv := false }

/-- After `PASS Y`: `DST` is the pass, the table is consumed, nothing else changed (R264, R265). -/
def PassYDone (c : Config) (s t : State) : Prop :=
  DstIsYPass c s.ctab s t ∧ OutsideExtentKept c .dst s t ∧ t = { s with dst := t.dst, tabv := false }

/-- After `RESIZE` (R266, R267): both passes, with the tables of the two axes; nothing else changed but the flags
of the Y build and its table. -/
def ResizeDone (c : Config) (s t : State) : Prop :=
  MidIsXPass c (table c .x s) s t ∧ DstIsYPass c (table c .y s) t t ∧
    OutsideExtentKept c .mid s t ∧ OutsideExtentKept c .dst s t ∧
    t = { s with mid := t.mid, dst := t.dst, ctab := table c .y s, tabv := false, tabax := .y, tabmode := mode .y s }

/-- The state s with a fault recorded (60_exceptions.md R313). -/
def faulted (s : State) (err : BitVec 3) (info0 info1 : Word) : State :=
  { s with err := err, info0 := info0, info1 := info1, fault := true }

/-- The state a build starts from: no valid table, its axis and mode recorded (43_contribution_table.md R238). -/
def buildStarted (a : Axis) (s : State) : State := { s with tabv := false, tabax := a, tabmode := mode a s }

/-- The number `BUF` of a buffer or `AXIS` of an axis times 2^24 is the operand part of the word of `PASS a`. -/
def passWord (a : Axis) : Word := match a with | .x => 0x20000000 | .y => 0x21000000

/-- On a chip with parameters c command i ends by recording a fault, in state f; on the machine's own chip that
is what `exec` answers. -/
def Raises (c : Config) (i : Instr) (s f : State) : Prop :=
  runWith c i s = .error f ∧ (c = Config.chip → exec i s = .next f)

/-- n steps of the machine, ending at a stop. -/
def steps : Nat → State → Host.Outcome State Fault Refusal
  | 0, s => .next s
  | n + 1, s =>
    match step s with
    | .next t => steps n t
    | .fault f => .fault f
    | .refused r => .refused r

/-- The command is no `SET`. -/
def NotSet (i : Instr) : Prop := ∀ r v, i ≠ .set r v

/-- The illegal words, case by case (30_encoding.md R130). -/
def IllegalWord (w : Word) : Prop :=
  let opc := w.toNat / 2 ^ 26
  let low n := w.toNat % 2 ^ n
  (opc = 0 ∨ 0x0A ≤ opc) ∨
    (opc = 1 ∧ low 22 / 2 ^ 20 ≠ 0) ∨
    (opc = 1 ∧ 13 ≤ low 26 / 2 ^ 22) ∨
    (opc = 1 ∧ 9 ≤ low 26 / 2 ^ 22 ∧ low 26 / 2 ^ 22 ≤ 12 ∧ low 20 / 2 ^ 16 ≠ 0) ∨
    (2 ≤ opc ∧ opc ≤ 8 ∧ low 24 ≠ 0) ∨
    (2 ≤ opc ∧ opc ≤ 6 ∧ low 26 / 2 ^ 24 = 3) ∨
    ((opc = 7 ∨ opc = 8) ∧ 2 ≤ low 26 / 2 ^ 24) ∨
    (opc = 9 ∧ low 26 ≠ 0)

end Sys2Proof.Spec

open Sys2Proof Sys2Proof.Machine Sys2Proof.Spec

/-! ### Encoding -/

/-- A few words written out from 30_encoding.md R133 decode to the commands they stand for. -/
def Obligations.WorkedWordsDecode : Prop :=
  decode 0x04000004 = .ok (.set .srcW 4) ∧ decode 0x05CFFFFF = .ok (.set .x 0xFFFFF) ∧
    decode 0x0640FFFF = .ok (.set .smp0 0xFFFF) ∧ decode 0x08000000 = .ok (.clr .src) ∧
    decode 0x0D000000 = .ok (.get .mid) ∧ decode 0x12000000 = .ok (.put .dst) ∧
    decode 0x14000000 = .ok (.unpack .src) ∧ decode 0x1A000000 = .ok (.pack .dst) ∧
    decode 0x1D000000 = .ok (.build .y) ∧ decode 0x20000000 = .ok (.pass .x) ∧ decode 0x24000000 = .ok .resize

/-- Decode and encode agree on every well-formed command, every operand value included. -/
def Obligations.DecodeOfEncodeIsTheCommand : Prop := ∀ i : Instr, i.wf = true → decode (encode i) = .ok i

/-- Every legal word is the encoding of the one well-formed command it decodes to. -/
def Obligations.EncodeOfDecodeIsTheWord : Prop :=
  ∀ (w : Word) (i : Instr), decode w = .ok i → i.wf = true ∧ encode i = w

/-- 30_encoding.md R130: the words of the listed cases, and no others, are illegal; every other word decodes to exactly
one command. Presenting an illegal word to a block that has not faulted raises `E_CMD` with the word in `INFO0`; that the
presented word stands in, and leaves, a queue is the model's choice (log 7). -/
def Obligations.IllegalWordsAreTheListedCases : Prop :=
  (∀ w : Word, IllegalWord w → ∀ i, decode w ≠ .ok i) ∧
    (∀ w : Word, ¬ IllegalWord w → ∃! i, decode w = .ok i) ∧
    (∀ (w : Word) (s : State) (rest : List HostAction), IllegalWord w → s.host = .command w :: rest →
      s.fault = false → step s = .next (faulted { s with host := rest } 1 w 0)) ∧
    IllegalWord 0x00000000 ∧ IllegalWord 0xFFFFFFFF

/-! ### The step and the host -/

/-- A presented word that decodes to a command runs as `exec` of it on the state without that word in the queue;
`withFetchWord` presents one. -/
def Obligations.StepRunsTheDecodedCommand : Prop :=
  (∀ (s : State) (w : Word) (rest : List HostAction) (i : Instr), s.host = .command w :: rest →
      s.fault = false → decode w = .ok i → i.wf = true ∧ step s = exec i { s with host := rest }) ∧
    (∀ (s : State) (w : Word) (i : Instr), s.fault = false → decode w = .ok i →
      step (s.withFetchWord 32 w.toNat) = exec i s)

/-- In the fault state a presented word, legal or not, and a host write of a cell or byte are discarded: only the
queue moves on. -/
def Obligations.FaultStateDiscards : Prop :=
  ∀ (s : State) (h : HostAction) (rest : List HostAction), s.host = h :: rest → s.fault = true → h ≠ .reset →
    step s = .next { s with host := rest }

/-- A host write of a cell or byte that exists, outside the fault state, changes that cell or byte only. -/
def Obligations.HostWritesReachOneUnit : Prop :=
  (∀ (s : State) (b : Buf) (a : Nat) (v : Sample) (rest : List HostAction),
      s.host = .writeCell b a v :: rest → s.fault = false → a < Config.chip.capBuf b →
      ∃ t, step s = .next t ∧ hostCell Config.chip b a t = some v ∧
        (∀ b' a', (b', a') ≠ (b, a) → cellRead Config.chip b' t a' = cellRead Config.chip b' s a') ∧
        OnlyBuffers { s with host := rest } t) ∧
    (∀ (s : State) (a : Nat) (v : Byte) (rest : List HostAction),
      s.host = .writeByte a v :: rest → s.fault = false → a < Config.chip.capByt →
      ∃ t, step s = .next t ∧ hostByte Config.chip a t = some v ∧
        (∀ a', a' ≠ a → byteRead Config.chip t a' = byteRead Config.chip s a') ∧
        t = { s with host := rest, byt := t.byt })

/-- Reset, asserted in any state, faulted or not, leaves every register, flag and fault word at the value
10_state.md R45 gives, and no cell or byte of a memory as written. That the counter of resets rises, so that the
unwritten memories are a fresh draw, and that the queue is kept, are the model's choices (log 5, 7, 9). -/
def Obligations.ResetLeavesTheResetState : Prop :=
  ∀ (s : State) (rest : List HostAction), s.host = .reset :: rest →
    ∃ t, step s = .next t ∧
      (∀ r, regRead r t = 0) ∧ statusWord t = 0 ∧ t.err = 0 ∧ t.info0 = 0 ∧ t.info1 = 0 ∧
      t.src = [] ∧ t.mid = [] ∧ t.dst = [] ∧ t.byt = [] ∧ t.epoch = s.epoch + 1 ∧ t.host = rest

/-- From reset every command but SET raises `E_GEOM(0, 0)`, whichever words were presented and in a step as in `exec`;
SET is accepted. -/
def Obligations.UnconfiguredBlockRaisesGeom : Prop :=
  (∀ i : Instr, NotSet i → exec i State.reset = .next (faulted State.reset 2 0 0)) ∧
    (∀ i : Instr, NotSet i →
      step (State.reset.withFetchWord 32 (encode i).toNat) = .next (faulted State.reset 2 0 0)) ∧
    (∀ r v, ∃ t, exec (.set r v) State.reset = .next t ∧ t.fault = false ∧ t.err = 0)

/-- Bits 0 to 3 of the `STATUS` word are the four flags, bits 31:4 read as 0, and `FAULT_OUT` is bit 0. -/
def Obligations.StatusWordLayout : Prop :=
  ∀ s : State,
    (statusWord s).getLsbD 0 = s.fault ∧ (statusWord s).getLsbD 1 = s.tabv ∧
      (statusWord s).getLsbD 2 = decide (s.tabax = .y) ∧ (statusWord s).getLsbD 3 = decide (s.tabmode = .shrink) ∧
      (statusWord s).toNat < 16 ∧ faultOut s = (statusWord s).getLsbD 0

/-! ### The configuration check -/

/-- 60_exceptions.md R302: every command but SET runs the check, in this order; the first failing test raises its
fault, and a legal configuration passes all of them. -/
def Obligations.ConfigurationCheckOrder : Prop :=
  ∀ (c : Config) (i : Instr) (s : State), NotSet i →
    (s.srcW = 0 → Raises c i s (faulted s 2 0 0)) ∧
    (s.srcW ≠ 0 → s.srcH = 0 → Raises c i s (faulted s 2 1 0)) ∧
    (s.srcW ≠ 0 → s.srcH ≠ 0 → s.dstW = 0 → Raises c i s (faulted s 2 2 0)) ∧
    (s.srcW ≠ 0 → s.srcH ≠ 0 → s.dstW ≠ 0 → s.dstH = 0 → Raises c i s (faulted s 2 3 0)) ∧
    (s.srcW ≠ 0 → s.srcH ≠ 0 → s.dstW ≠ 0 → s.dstH ≠ 0 →
      let chansOk := s.chans = 1 ∨ s.chans = 2 ∨ s.chans = 3 ∨ s.chans = 4
      let depthOk := s.depth = 8 ∨ s.depth = 16
      let tooBig := fun b => c.capBuf b < bufW b s * bufH b s
      (¬ chansOk → Raises c i s (faulted s 3 4 (s.chans.setWidth 32))) ∧
      (chansOk → ¬ depthOk → Raises c i s (faulted s 3 5 (s.depth.setWidth 32))) ∧
      (chansOk → depthOk → tooBig .src → Raises c i s (faulted s 4 0 0)) ∧
      (chansOk → depthOk → ¬ tooBig .src → tooBig .mid → Raises c i s (faulted s 4 1 0)) ∧
      (chansOk → depthOk → ¬ tooBig .src → ¬ tooBig .mid → tooBig .dst → Raises c i s (faulted s 4 2 0)) ∧
      (chansOk → depthOk → ¬ tooBig .src → ¬ tooBig .mid → ¬ tooBig .dst → checkCfg c s = none))

/-! ### SET, CLR, GET, PUT -/

/-- 40_config_and_pixelbuffer.md R161: what SET leaves, register by register; it never faults. -/
def Obligations.SetWritesItsRegister : Prop :=
  ∀ (s : State) (v : Field20),
    exec (.set .srcW v) s = .next { s with srcW := v, tabv := false } ∧
    exec (.set .srcH v) s = .next { s with srcH := v, tabv := false } ∧
    exec (.set .dstW v) s = .next { s with dstW := v, tabv := false } ∧
    exec (.set .dstH v) s = .next { s with dstH := v, tabv := false } ∧
    exec (.set .chans v) s = .next { s with chans := v, tabv := false } ∧
    exec (.set .depth v) s = .next { s with depth := v, tabv := false } ∧
    exec (.set .ksel v) s = .next { s with ksel := v, tabv := false } ∧
    exec (.set .x v) s = .next { s with x := v } ∧
    exec (.set .y v) s = .next { s with y := v } ∧
    exec (.set .smp0 v) s = .next { s with smp := ⟨v.setWidth 16, s.smp.c1, s.smp.c2, s.smp.c3⟩ } ∧
    exec (.set .smp1 v) s = .next { s with smp := ⟨s.smp.c0, v.setWidth 16, s.smp.c2, s.smp.c3⟩ } ∧
    exec (.set .smp2 v) s = .next { s with smp := ⟨s.smp.c0, s.smp.c1, v.setWidth 16, s.smp.c3⟩ } ∧
    exec (.set .smp3 v) s = .next { s with smp := ⟨s.smp.c0, s.smp.c1, s.smp.c2, v.setWidth 16⟩ }

/-- 40_config_and_pixelbuffer.md R162: CLR under a legal configuration. -/
def Obligations.ClrZeroesTheActiveExtent : Prop :=
  (∀ (b : Buf) (s : State), ConfigLegal Config.chip s →
      ∃ t, exec (.clr b) s = .next t ∧ ClrDone Config.chip b s t) ∧
    (∀ (c : Config) (b : Buf) (s : State), ConfigLegal c s → ∃ t, runWith c (.clr b) s = .ok t ∧ ClrDone c b s t)

/-- 40_config_and_pixelbuffer.md R163: GET under a legal configuration. -/
def Obligations.GetReadsTheWrappedSample : Prop :=
  (∀ (b : Buf) (s : State), ConfigLegal Config.chip s →
      ∃ t, exec (.get b) s = .next t ∧ GetDone Config.chip b s t) ∧
    (∀ (c : Config) (b : Buf) (s : State), ConfigLegal c s → ∃ t, runWith c (.get b) s = .ok t ∧ GetDone c b s t)

/-- 40_config_and_pixelbuffer.md R164: PUT under a legal configuration. -/
def Obligations.PutWritesOneWrappedCell : Prop :=
  (∀ (b : Buf) (s : State), ConfigLegal Config.chip s →
      ∃ t, exec (.put b) s = .next t ∧ PutDone Config.chip b s t) ∧
    (∀ (c : Config) (b : Buf) (s : State), ConfigLegal c s → ∃ t, runWith c (.put b) s = .ok t ∧ PutDone c b s t)

/-- 20_memory.md R84: `wrap` satisfies the equations of the spec's two loops and is the residue in [0, n). -/
def Obligations.WrapFollowsTheLoops : Prop :=
  ∀ (v : Int) (n : Nat), 1 ≤ n →
    (v < 0 → wrap v n = wrap (v + n) n) ∧ ((n : Int) ≤ v → wrap v n = wrap (v - n) n) ∧
      (0 ≤ v → v < n → (wrap v n : Int) = v) ∧ wrap v n < n ∧ (n : Int) ∣ v - wrap v n ∧
      wrap (-1) 4 = 3 ∧ wrap 4 4 = 0 ∧ wrap (-9) 4 = 3 ∧ wrap 11 4 = 3

/-- 40_config_and_pixelbuffer.md R165: periodicity, read after write, and the frame of the wrapped accessors, for
every buffer of positive extent. -/
def Obligations.AccessorLaws : Prop :=
  ∀ (c : Config) (b : Buf) (s : State), 0 < bufW b s → 0 < bufH b s → ∀ (x y j k x' y' : Int) (t : Sample),
    bufGet c b (x + j * bufW b s) (y + k * bufH b s) s = bufGet c b x y s ∧
      ((∀ ch : Fin 4, s.chans.toNat ≤ ch.val → slot t ch = 0) → bufGet c b x y (bufPut c b x y t s) = t) ∧
      (wrap x' (bufW b s) ≠ wrap x (bufW b s) ∨ wrap y' (bufH b s) ≠ wrap y (bufH b s) →
        bufGet c b x' y' (bufPut c b x y t s) = bufGet c b x' y' s)

/-! ### UNPACK, PACK -/

/-- 41_byte_conversion.md R193: UNPACK decodes the stream when it fits `BYT`, else raises `E_ALLOC(4, 0)` having
changed nothing. -/
def Obligations.UnpackDecodesTheStream : Prop :=
  (∀ (b : Buf) (s : State), ConfigLegal Config.chip s → bytesOf b s ≤ Config.chip.capByt →
      ∃ t, exec (.unpack b) s = .next t ∧ UnpackDone Config.chip b s t) ∧
    (∀ (c : Config) (b : Buf) (s : State), ConfigLegal c s → bytesOf b s ≤ c.capByt →
      ∃ t, runWith c (.unpack b) s = .ok t ∧ UnpackDone c b s t) ∧
    (∀ (c : Config) (b : Buf) (s : State), ConfigLegal c s → c.capByt < bytesOf b s →
      Raises c (.unpack b) s (faulted s 4 4 0))

/-- 41_byte_conversion.md R196: PACK serialises the buffer when the stream fits `BYT`, else raises `E_ALLOC(4, 0)`
having changed nothing. -/
def Obligations.PackEncodesTheBuffer : Prop :=
  (∀ (b : Buf) (s : State), ConfigLegal Config.chip s → bytesOf b s ≤ Config.chip.capByt →
      ∃ t, exec (.pack b) s = .next t ∧ PackDone Config.chip b s t) ∧
    (∀ (c : Config) (b : Buf) (s : State), ConfigLegal c s → bytesOf b s ≤ c.capByt →
      ∃ t, runWith c (.pack b) s = .ok t ∧ PackDone c b s t) ∧
    (∀ (c : Config) (b : Buf) (s : State), ConfigLegal c s → c.capByt < bytesOf b s →
      Raises c (.pack b) s (faulted s 4 4 0))

/-- The conversion functions: Dec8 is the exact rescale, Enc8 the nearest byte, and the round trips of
41_byte_conversion.md R197, for every sample and byte. -/
def Obligations.ConversionFunctionLaws : Prop :=
  (∀ b : Byte, (dec8 b).toNat * 255 = 65535 * b.toNat ∧ enc8 (dec8 b) = b) ∧
    (∀ v : U16, 2 * (255 * v.toNat) < 65535 * (2 * (enc8 v).toNat + 1) ∧
      65535 * (2 * (enc8 v).toNat) < 2 * (255 * v.toNat) + 65535) ∧
    (∀ v : U16, dec16 (enc16 v).1 (enc16 v).2 = v) ∧
    (∀ v : U16, (dec8 (enc8 v)).toNat ≤ v.toNat + 128 ∧ v.toNat ≤ (dec8 (enc8 v)).toNat + 128 ∧
      (dec8 (enc8 v) = v ↔ 257 ∣ v.toNat)) ∧
    dec8 (enc8 128) = 0 ∧ dec8 (enc8 385) = 257

/-- `PACK B; UNPACK B` at 16 bits keeps every channel value of the active extent and at 8 bits changes it by at most
128; `UNPACK B; PACK B` at 8 bits keeps the bytes of the stream. -/
def Obligations.PackAndUnpackRoundTrip : Prop :=
  ∀ (c : Config) (b : Buf) (s t u : State), ConfigLegal c s → bytesOf b s ≤ c.capByt →
    ((runWith c (.pack b) s = .ok t ∧ runWith c (.unpack b) t = .ok u) →
      ∀ p < bufW b s * bufH b s, ∀ ch : Fin 4, ch.val < s.chans.toNat →
        let v := (slot (cellRead c b s p) ch).toNat
        let v' := (slot (cellRead c b u p) ch).toNat
        (s.depth = 16 → v' = v) ∧ (s.depth = 8 → v' ≤ v + 128 ∧ v ≤ v' + 128)) ∧
    ((runWith c (.unpack b) s = .ok t ∧ runWith c (.pack b) t = .ok u) → s.depth = 8 →
      ∀ a < bytesOf b s, byteRead c u a = byteRead c s a)

/-! ### The kernel bank -/

/-- 42_kernel_bank.md R211: the selector decode; every unmatched selector is Box; and BUILD and RESIZE read `KSEL`
through the decode only: with another selector of the same kernel (7 for 0) they end in the same state, `KSEL` apart,
no flag and no fault added. -/
def Obligations.SelectorDecode : Prop :=
  kDecode 0 = .box ∧ kDecode 1 = .bilinear ∧ kDecode 2 = .bspline ∧ kDecode 3 = .bicubic ∧
    kDecode 4 = .lanczos3 ∧ kDecode 5 = .mitchell ∧ (∀ v : Field20, 6 ≤ v.toNat → kDecode v = .box) ∧
    (∀ (c : Config) (i : Instr) (s t : State) (k : Field20), (i = .resize ∨ ∃ a, i = .build a) →
      kDecode k = kDecode s.ksel → finish (runWith c i s) = .next t →
      finish (runWith c i { s with ksel := k }) = .next { t with ksel := k })

/-- 42_kernel_bank.md R212 (c), (d), (e): the ROM of the machine's chip meets the contract, and so does every ROM cut
from arbitrary values. That clause (e) includes the edge points, and that the contract holds by construction, are
log 2's. -/
def Obligations.RomMeetsItsContract : Prop :=
  RomContract Config.chip.krom ∧ ∀ raw : Kernel → Rat → Rat, RomContract (romCut raw)

/-- All six kernels of `KROM_DEFAULT` (log 16) meet the contract, and every ROM that meets it is what the cut leaves of
itself: the machine's chip, whose ROM is cut from free values, shuts out no legal ROM (log 2). -/
def Obligations.DefaultRomIsLegal : Prop :=
  RomContract kromDefault ∧ ∀ K : Kernel → Rat → Rat, RomContract K → romCut K = K

/-! ### BUILD -/

/-- 43_contribution_table.md R234: the boundary map, its examples, and the candidates it maps inside the axis. -/
def Obligations.BoundaryMapReflects : Prop :=
  (∀ (j b : Int), 1 ≤ b →
      (j < 0 → bmap j b = -j) ∧ (b ≤ j → bmap j b = 2 * b - 1 - j) ∧ (0 ≤ j → j < b → bmap j b = j) ∧
        ((0 ≤ bmap j b ∧ bmap j b ≤ b - 1) ↔ (-(b - 1) ≤ j ∧ j ≤ 2 * b - 1))) ∧
    bmap (-1) 10 = 1 ∧ bmap 10 10 = 9 ∧ bmap 11 10 = 8

/-- BUILD completes with the table the two paths define: 43_contribution_table.md R232 (shrink) and R233 (enlarge),
every candidate emitted in ascending order; flags, capacity and frame are R238's. The weights are exact: `NUM_Q`
(log 1). -/
def Obligations.BuildCompletesWithItsTable : Prop :=
  (∀ (a : Axis) (s : State), ConfigLegal Config.chip s → Buildable Config.chip a s →
      exec (.build a) s =
        .next { s with ctab := table Config.chip a s, tabv := true, tabax := a, tabmode := mode a s }) ∧
    (∀ (c : Config) (a : Axis) (s : State), c.num = numQ → ConfigLegal c s → Buildable c a s →
      runWith c (.build a) s = .ok { s with ctab := table c a s, tabv := true, tabax := a, tabmode := mode a s })

/-- BUILD raises the first fault its algorithm meets: by ascending destination index, first a zero total, then per
candidate the reflection test before the capacity test; the flags are those of the start of the build. That the field
behind `CTAB` keeps its list is the model's choice (log 6); totals are exact, in `NUM_Q` (log 1). -/
def Obligations.BuildRaisesTheFirstFaultMet : Prop :=
  ∀ (c : Config) (a : Axis) (s : State), c.num = numQ → ConfigLegal c s →
    let kid := kDecode s.ksel
    let nd := axisDst a s
    let ns := axisSrc a s
    let K := c.krom
    ∀ i < nd, (∀ j < i, RowOk K kid nd ns j) → pairsBelow kid nd ns i ≤ c.capTab →
      (¬ TotalOk K kid nd ns i →
        Raises c (.build a) s (faulted (buildStarted a s) 6 (BitVec.ofNat 32 i) 0)) ∧
      (TotalOk K kid nd ns i → ∀ (pre post : List Int) (k : Int), cands kid nd ns i = pre ++ k :: post →
        (∀ k' ∈ pre, Inside ns k') → pairsBelow kid nd ns i + pre.length ≤ c.capTab →
        (¬ Inside ns k →
          Raises c (.build a) s (faulted (buildStarted a s) 5 (BitVec.ofNat 32 i) (BitVec.ofInt 32 k))) ∧
        (Inside ns k → pairsBelow kid nd ns i + pre.length = c.capTab →
          Raises c (.build a) s (faulted (buildStarted a s) 4 3 (BitVec.ofNat 32 i))))

/-- When reflection overflows: with a support that reaches the source axis, BUILD raises `E_REFL` at the first pair of
the first list (unless the first total is zero, which is met before); with a smaller support it never raises it. In terms of
the sizes: `KSUP ≥ ns` when enlarging, `KSUP ≥ nd` when shrinking. In `NUM_Q` (log 1); the table kept behind `CTAB` is
log 6's. -/
def Obligations.ReflectionOverflowExactly : Prop :=
  ∀ (c : Config) (a : Axis) (s : State), c.num = numQ → ConfigLegal c s →
    let kid := kDecode s.ksel
    let nd := axisDst a s
    let ns := axisSrc a s
    (((ns : Rat) ≤ esup kid nd ns) ↔ if nd < ns then (nd : Rat) ≤ ksup kid else (ns : Rat) ≤ ksup kid) ∧
      ((ns : Rat) ≤ esup kid nd ns → TotalOk c.krom kid nd ns 0 →
        Raises c (.build a) s (faulted (buildStarted a s) 5 0 (BitVec.ofInt 32 (-⌊esup kid nd ns⌋)))) ∧
      (esup kid nd ns < (ns : Rat) → ∀ t, runWith c (.build a) s = .error t → t.err ≠ 5)

/-- Every table a build of positive axis lengths makes has one list per destination coordinate, stores only indices
inside the source axis, and holds at most `CAP_TAB` pairs, in every number system and for every ROM. -/
def Obligations.BuiltTableIsWellShaped : Prop :=
  ∀ (F : Type) (N : Num F) (K : Kernel → F → F) (kid : Kernel) (nd ns cap : Nat) (T : TableOf F),
    buildTable N K kid nd ns cap = .ok T →
      T.length = nd ∧ (∀ l ∈ T, ∀ p ∈ l, 0 ≤ p.1 ∧ p.1 < ns) ∧ (T.map List.length).sum ≤ cap

/-- 43_contribution_table.md R240: in `NUM_Q` the weights of every list of a shrink table sum to exactly 1, and the
weights of an enlarge table are the raw kernel values, whatever the ROM. -/
def Obligations.ShrinkWeightsSumToOne : Prop :=
  ∀ (K : Kernel → Rat → Rat) (kid : Kernel) (nd ns cap : Nat) (T : Table), 1 ≤ nd → 1 ≤ ns →
    buildTable numQ K kid nd ns cap = .ok T →
      (nd < ns → ∀ l ∈ T, (l.map Prod.snd).sum = 1) ∧
      (ns ≤ nd → ∀ i < nd,
        (T.getD i []).map Prod.snd = (cands kid nd ns i).map fun (k : Int) => K kid (center nd ns i - (k : Rat)))

/-- The number of candidates the builder scans for a destination index, in `NUM_Q` (log 1), against its own support; and
the length of every list of a table it returns, against the support of R232 and R233. No list is empty. -/
def Obligations.CandidateCountBounds : Prop :=
  (∀ (kid : Kernel) (nd ns i : Nat), 1 ≤ nd → 1 ≤ ns →
      2 * esupOf numQ kid nd ns - 1 < ((candidatesOf numQ kid nd ns i).length : Rat) ∧
        ((candidatesOf numQ kid nd ns i).length : Rat) ≤ 2 * esupOf numQ kid nd ns + 1 ∧
        candidatesOf numQ kid nd ns i ≠ []) ∧
    (∀ (K : Kernel → Rat → Rat) (kid : Kernel) (nd ns cap : Nat) (T : Table), 1 ≤ nd → 1 ≤ ns →
      buildTable numQ K kid nd ns cap = .ok T → ∀ l ∈ T,
        2 * esup kid nd ns - 1 < (l.length : Rat) ∧ (l.length : Rat) ≤ 2 * esup kid nd ns + 1 ∧ l ≠ [])

/-- At 1:1 the list of coordinate i holds the pair (i, K(kid, 0)), for every kernel and ROM. -/
def Obligations.IdentityTableHoldsThePeak : Prop :=
  ∀ (K : Kernel → Rat → Rat) (kid : Kernel) (n cap : Nat) (T : Table), buildTable numQ K kid n n cap = .ok T →
    ∀ i < n, ((i : Int), K kid 0) ∈ T.getD i []

/-! ### The pipeline, PASS and RESIZE -/

/-- 44_separable_resampler.md R261: ClampRound, in `NUM_Q` on every value and in `NUM_F64` on the special ones. -/
def Obligations.ClampRoundIsNearest : Prop :=
  (∀ a : Rat, NearestClamped a (clampRoundQ a).toNat) ∧
    (∀ (neg : Bool) (m : Rat), clampRoundF64 (.fin neg m) = clampRoundQ (if neg then -m else m)) ∧
    clampRoundF64 (.inf false) = 65535 ∧ clampRoundF64 (.inf true) = 0 ∧ clampRoundF64 .nan = 0

/-- 44_separable_resampler.md R262: rounding first and clamping the integer afterwards gives the same sample. -/
def Obligations.RoundThenClampAgrees : Prop :=
  ∀ a : Rat, ((clampRoundQ a).toNat : Int) = min (max ⌊a + 1 / 2⌋ 0) 65535

/-- 44_separable_resampler.md R263, R265: PASS X with its table. The sums are exact, `NUM_Q` (log 1); that the field
behind `CTAB` keeps the consumed table is log 6's; in a state whose table has too few lists, which the invariant `Sound`
excludes, the missing lists are empty (log 14). -/
def Obligations.PassXConvolvesRows : Prop :=
  (∀ s : State, ConfigLegal Config.chip s → s.tabv = true → s.tabax = .x →
      ∃ t, exec (.pass .x) s = .next t ∧ PassXDone Config.chip s t) ∧
    (∀ (c : Config) (s : State), c.num = numQ → ConfigLegal c s → s.tabv = true → s.tabax = .x →
      ∃ t, runWith c (.pass .x) s = .ok t ∧ PassXDone c s t)

/-- 44_separable_resampler.md R264, R265: PASS Y with its table. The sums are exact, `NUM_Q` (log 1); that the field
behind `CTAB` keeps the consumed table is log 6's; in a state whose table has too few lists, which the invariant `Sound`
excludes, the missing lists are empty (log 14). -/
def Obligations.PassYConvolvesColumns : Prop :=
  (∀ s : State, ConfigLegal Config.chip s → s.tabv = true → s.tabax = .y →
      ∃ t, exec (.pass .y) s = .next t ∧ PassYDone Config.chip s t) ∧
    (∀ (c : Config) (s : State), c.num = numQ → ConfigLegal c s → s.tabv = true → s.tabax = .y →
      ∃ t, runWith c (.pass .y) s = .ok t ∧ PassYDone c s t)

/-- PASS without a valid table of its axis raises `E_SEQ` with its word and changes nothing else. -/
def Obligations.PassWithoutItsTableRaisesSeq : Prop :=
  ∀ (a : Axis) (s : State), ConfigLegal Config.chip s → (s.tabv = false ∨ s.tabax ≠ a) →
    exec (.pass a) s = .next (faulted s 7 (passWord a) 0)

/-- While the table is sound, a pass never exercises the periodic wrap: every stored index is read at its own column
(X pass) or row (Y pass). -/
def Obligations.PassNeverWraps : Prop :=
  ∀ (c : Config) (s : State), TableSound c s → s.tabv = true → ∀ l ∈ s.ctab, ∀ p ∈ l,
    (s.tabax = .x → ∀ k < s.srcH.toNat, cellAddr .src p.1 k s = k * s.srcW.toNat + p.1.toNat) ∧
      (s.tabax = .y → ∀ k < s.dstW.toNat, cellAddr .mid k p.1 s = p.1.toNat * s.dstW.toNat + k)

/-- RESIZE completes with both passes when both tables can be built. The sums are exact, `NUM_Q` (log 1); that the
field behind `CTAB` keeps the consumed Y table is the model's choice (log 6). -/
def Obligations.ResizeCompletes : Prop :=
  (∀ s : State, ConfigLegal Config.chip s → Buildable Config.chip .x s → Buildable Config.chip .y s →
      ∃ t, exec .resize s = .next t ∧ ResizeDone Config.chip s t) ∧
    (∀ (c : Config) (s : State), c.num = numQ → ConfigLegal c s → Buildable c .x s → Buildable c .y s →
      ∃ t, runWith c .resize s = .ok t ∧ ResizeDone c s t)

/-- RESIZE leaves the state the four commands BUILD X, PASS X, BUILD Y, PASS Y leave, from every state, faulting or
not: one step against four steps of the machine. -/
def Obligations.ResizeEqualsItsFourCommands : Prop :=
  ∀ (s : State) (rest : List HostAction),
    steps 1 { s with host := .command 0x24000000 :: rest } =
      steps 4 { s with
        host := .command 0x1C000000 :: .command 0x20000000 :: .command 0x1D000000 :: .command 0x21000000 :: rest }

/-- A RESIZE that faults keeps its completed sub-steps: after a faulting X build no buffer changed; after a faulting Y
build `MID` is the complete X pass, its cells outside the active extent read as before, and `DST` is as before. Totals
and sums are exact, `NUM_Q` (log 1). -/
def Obligations.FaultingResizeKeepsCompletedSteps : Prop :=
  ∀ (c : Config) (s t : State), c.num = numQ → ConfigLegal c s → runWith c .resize s = .error t →
    t.src = s.src ∧ t.dst = s.dst ∧ t.tabv = false ∧
      (¬ Buildable c .x s → t.mid = s.mid ∧ t.tabax = .x) ∧
      (Buildable c .x s → ¬ Buildable c .y s ∧ MidIsXPass c (table c .x s) s t ∧ OutsideExtentKept c .mid s t ∧
        t.tabax = .y)

/-- 44_separable_resampler.md R268: channels are independent lanes. Two runs of a PASS or of RESIZE from states that
differ only in the sample buffers and agree there on channel ch leave buffers that agree on channel ch. -/
def Obligations.ChannelsAreIndependentLanes : Prop :=
  ∀ (c : Config) (i : Instr) (ch : Fin 4) (s s' : State), (i = .resize ∨ ∃ a, i = .pass a) → OnlyBuffers s s' →
    (∀ b a, slot (cellRead c b s' a) ch = slot (cellRead c b s a) ch) →
    ∀ t t', finish (runWith c i s) = .next t → finish (runWith c i s') = .next t' →
      OnlyBuffers t t' ∧ ∀ b a, slot (cellRead c b t' a) ch = slot (cellRead c b t a) ch

/-- 44_separable_resampler.md R269: the resampling never reads `DEPTH`. Two configurations that differ only in a
legal `DEPTH` give the same state but for `DEPTH`, on BUILD, PASS and RESIZE. -/
def Obligations.ResamplingIgnoresDepth : Prop :=
  ∀ (c : Config) (i : Instr) (s : State) (d : Field20), (i = .resize ∨ ∃ a, i = .build a ∨ i = .pass a) →
    (s.depth = 8 ∨ s.depth = 16) → (d = 8 ∨ d = 16) →
    ∀ t, finish (runWith c i s) = .next t → finish (runWith c i { s with depth := d }) = .next { t with depth := d }

/-- A uniform channel, on either pass: if every weight list used sums to 1 and every cell of the extent of the pass's
input holds V on channel ch, the pass leaves V on channel ch of every cell of the extent of its output. In `NUM_Q`
(log 1). -/
def Obligations.UniformChannelIsKept : Prop :=
  ∀ (c : Config) (a : Axis) (s t : State) (ch : Fin 4) (V : U16), c.num = numQ → ConfigLegal c s → s.tabv = true →
    s.tabax = a → ch.val < s.chans.toNat → (∀ i < axisDst a s, ((s.ctab.getD i []).map Prod.snd).sum = 1) →
    let input := match a with | .x => Buf.src | .y => Buf.mid
    let output := match a with | .x => Buf.mid | .y => Buf.dst
    (∀ p < bufW input s * bufH input s, slot (cellRead c input s p) ch = V) →
    runWith c (.pass a) s = .ok t →
    ∀ p < bufW output s * bufH output s, slot (cellRead c output t p) ch = V

/-- An interpolating kernel at 1:1 on both axes reproduces the image (44_separable_resampler.md R271): `K(kid, 0) = 1`
and 0 at the other integers inside the support. In `NUM_Q` (log 1). -/
def Obligations.IdentityResizeReproduces : Prop :=
  ∀ (c : Config) (s t : State), c.num = numQ → ConfigLegal c s → s.dstW = s.srcW → s.dstH = s.srcH →
    let K := c.krom (kDecode s.ksel)
    K 0 = 1 → (∀ m : Int, m ≠ 0 → |(m : Rat)| ≤ ksup (kDecode s.ksel) → K (m : Rat) = 0) →
    runWith c .resize s = .ok t →
    ∀ a < s.srcW.toNat * s.srcH.toNat, ∀ ch : Fin 4, ch.val < s.chans.toNat →
      slot (cellRead c .dst t a) ch = slot (cellRead c .src s a) ch

/-! ### Rules about the whole machine -/

/-- The invariant holds at reset. -/
def Obligations.ResetIsSound : Prop := Sound Config.chip State.reset

/-- Every step keeps the invariant: the fault record, the canonical form and bounds of all four memories, and that a
valid table is the table of the current configuration. -/
def Obligations.EveryStepKeepsSoundness : Prop :=
  ∀ s t : State, Sound Config.chip s → step s = .next t → Sound Config.chip t

/-- Every command ends in a next state, from every state: no command stops the model or waits. -/
def Obligations.EveryCommandTerminates : Prop := ∀ (i : Instr) (s : State), ∃ t, exec i s = .next t

/-- The configuration and coordinate registers are written by SET and by reset alone: a step that presents no `SET`
word and is no reset leaves all nine unchanged; only GET, SET and reset write a sample register. -/
def Obligations.OnlySetAndResetWriteRegisters : Prop :=
  (∀ (s t : State) (h : HostAction) (rest : List HostAction), s.host = h :: rest → h ≠ .reset →
      (∀ w r v, h = .command w → decode w ≠ .ok (.set r v)) → step s = .next t →
      t.srcW = s.srcW ∧ t.srcH = s.srcH ∧ t.dstW = s.dstW ∧ t.dstH = s.dstH ∧ t.chans = s.chans ∧
        t.depth = s.depth ∧ t.ksel = s.ksel ∧ t.x = s.x ∧ t.y = s.y) ∧
    (∀ (s t : State) (i : Instr), NotSet i → (∀ b, i ≠ .get b) → exec i s = .next t → t.smp = s.smp)

/-- BUILD, PASS and RESIZE never change `SRC`, `BYT`, `KSEL`, the dimension registers or `SMP`; BUILD changes no
buffer. -/
def Obligations.ResamplingFrame : Prop :=
  (∀ (i : Instr) (s t : State), (i = .resize ∨ ∃ a, i = .build a ∨ i = .pass a) → exec i s = .next t →
      t = { s with
        mid := t.mid, dst := t.dst, ctab := t.ctab, tabv := t.tabv, tabax := t.tabax, tabmode := t.tabmode,
        fault := t.fault, err := t.err, info0 := t.info0, info1 := t.info1 }) ∧
    (∀ (a : Axis) (s t : State), exec (.build a) s = .next t → t.mid = s.mid ∧ t.dst = s.dst) ∧
    (∀ (s t : State), exec (.pass .x) s = .next t → t.dst = s.dst) ∧
    (∀ (s t : State), exec (.pass .y) s = .next t → t.mid = s.mid)

/-- Once a fault is recorded, no step but a reset changes anything but the queue: the record names the first fault. -/
def Obligations.FirstFaultStaysRecorded : Prop :=
  ∀ (s t : State), s.fault = true → s.host.head? ≠ some .reset → step s = .next t →
    t = { s with host := t.host } ∧ t.err = s.err ∧ t.info0 = s.info0 ∧ t.info1 = s.info1

/-- Every cell a command writes carries 0 in the slots at and above `CHANS`. -/
def Obligations.WrittenCellsAreZeroAboveChans : Prop :=
  ∀ (i : Instr) (s t : State), exec i s = .next t → ∀ b a,
    cellRead Config.chip b t a = cellRead Config.chip b s a ∨
      ∀ ch : Fin 4, s.chans.toNat ≤ ch.val → slot (cellRead Config.chip b t a) ch = 0

/-- `NUM_F64` (00_scope.md R10), the IEEE 754 corners being general knowledge (log 15). `roundMag q` is a multiple of the
quantum nearest to q, a tie going to the even multiple; the rounding of q is that magnitude below the overflow threshold
2^1024 - 2^970 and an infinity from it on; and the four operations on finite operands are that rounding of the exact
result. -/
def Obligations.BinaryRoundingIsNearest : Prop :=
  (∀ q : Rat, 0 < q → ∃ (u n : Int), -1074 ≤ u ∧ roundMag q = (n : Rat) * pow2 u ∧
      |roundMag q - q| ≤ pow2 u / 2 ∧ (|roundMag q - q| = pow2 u / 2 → 2 ∣ n) ∧
      (u = -1074 ∨ pow2 (u + 52) ≤ q) ∧ q < pow2 (u + 53)) ∧
    (∀ (neg : Bool) (q : Rat), 0 < q →
      roundF64 neg q = if pow2 1024 - pow2 970 ≤ q then .inf neg else .fin neg (roundMag q)) ∧
    (∀ (n m : Bool) (p q : Rat), 0 ≤ p → 0 ≤ q →
      let x := F64.fin n p
      let y := F64.fin m q
      let v := fun (z : F64) (e : Rat) => e ≠ 0 → z = roundF64 (decide (e < 0)) |e|
      v (numF64.add x y) (signed n p + signed m q) ∧ v (numF64.sub x y) (signed n p - signed m q) ∧
        v (numF64.mul x y) (signed n p * signed m q) ∧ (q ≠ 0 → v (numF64.div x y) (signed n p / signed m q)))

/-! ### The number system, the host's reads, waiting -/

/-- `NUM` may be over any type (00_scope.md R9): a number system whose values are held under rational names builds the
same tables and rounds the same pixels as it does over its own type, whatever the ROM. `NUM_F64` is one of them. -/
def Obligations.HeldNumberSystemAgrees : Prop :=
  (∀ (F : Type) (N : Num F) (name : F → Rat) (read : Rat → F), (∀ x, read (name x) = x) →
      (∀ (K : Kernel → F → F) (kid : Kernel) (nd ns cap : Nat),
        buildTable (heldNum N name read) (fun k t => name (K k (read t))) kid nd ns cap =
          (buildTable N K kid nd ns cap).map (nameTable name)) ∧
      ∀ (fetch : Int → U16) (l : List (Int × F)),
        (heldNum N name read).clampRound (mac (heldNum N name read) fetch (l.map fun p => (p.1, name p.2))) =
          N.clampRound (mac N fetch l)) ∧
    ∀ x : F64, readF64 (nameF64 x) = x

/-- What the host reads (20_memory.md R90 (b), (c)): every register, the flags, the fault record, every cell and byte
that exists, and the table while it is valid. That a narrower register is zero-extended is the model's choice (log 21),
and that a read beyond a capacity gives none is log 8's. -/
def Obligations.HostReadsShowTheState : Prop :=
  ∀ (c : Config) (s : State),
    ((hostReg (.reg .srcW) s).toNat = s.srcW.toNat ∧ (hostReg (.reg .srcH) s).toNat = s.srcH.toNat ∧
      (hostReg (.reg .dstW) s).toNat = s.dstW.toNat ∧ (hostReg (.reg .dstH) s).toNat = s.dstH.toNat ∧
      (hostReg (.reg .chans) s).toNat = s.chans.toNat ∧ (hostReg (.reg .depth) s).toNat = s.depth.toNat ∧
      (hostReg (.reg .ksel) s).toNat = s.ksel.toNat ∧ (hostReg (.reg .x) s).toNat = s.x.toNat ∧
      (hostReg (.reg .y) s).toNat = s.y.toNat ∧ (hostReg (.reg .smp0) s).toNat = s.smp.c0.toNat ∧
      (hostReg (.reg .smp1) s).toNat = s.smp.c1.toNat ∧ (hostReg (.reg .smp2) s).toNat = s.smp.c2.toNat ∧
      (hostReg (.reg .smp3) s).toNat = s.smp.c3.toNat) ∧
    (hostReg .status s = statusWord s ∧ (hostReg .err s).toNat = s.err.toNat ∧ hostReg .info0 s = s.info0 ∧
      hostReg .info1 s = s.info1) ∧
    (∀ b a, (a < c.capBuf b → hostCell c b a s = some (cellRead c b s a)) ∧
      (c.capBuf b ≤ a → hostCell c b a s = none)) ∧
    (∀ a, (a < c.capByt → hostByte c a s = some (byteRead c s a)) ∧ (c.capByt ≤ a → hostByte c a s = none)) ∧
    (s.tabv = true → hostTable c s = s.ctab)

/-- With nothing from the host the block waits, and waiting loses no state (60_exceptions.md R318); that the host's next
actions are a queue is the model's choice (log 7). -/
def Obligations.EmptyQueueWaits : Prop := ∀ s : State, s.host = [] → step s = .next s
end

