-- ==== Sys2Proof/Laws/State.lean ====
section
/-! SUPPORT. One lemma per field and update of the state, so that no later proof unfolds a record update, and the
accessors over the updates. -/

namespace Sys2Proof.Machine

/-! ### raise -/

@[simp] theorem raise_srcW (e : Cause) (i0 i1 : Int) (s : State) : (raise e i0 i1 s).srcW = s.srcW := rfl
@[simp] theorem raise_srcH (e : Cause) (i0 i1 : Int) (s : State) : (raise e i0 i1 s).srcH = s.srcH := rfl
@[simp] theorem raise_dstW (e : Cause) (i0 i1 : Int) (s : State) : (raise e i0 i1 s).dstW = s.dstW := rfl
@[simp] theorem raise_dstH (e : Cause) (i0 i1 : Int) (s : State) : (raise e i0 i1 s).dstH = s.dstH := rfl
@[simp] theorem raise_chans (e : Cause) (i0 i1 : Int) (s : State) : (raise e i0 i1 s).chans = s.chans := rfl
@[simp] theorem raise_depth (e : Cause) (i0 i1 : Int) (s : State) : (raise e i0 i1 s).depth = s.depth := rfl
@[simp] theorem raise_ksel (e : Cause) (i0 i1 : Int) (s : State) : (raise e i0 i1 s).ksel = s.ksel := rfl
@[simp] theorem raise_x (e : Cause) (i0 i1 : Int) (s : State) : (raise e i0 i1 s).x = s.x := rfl
@[simp] theorem raise_y (e : Cause) (i0 i1 : Int) (s : State) : (raise e i0 i1 s).y = s.y := rfl
@[simp] theorem raise_smp (e : Cause) (i0 i1 : Int) (s : State) : (raise e i0 i1 s).smp = s.smp := rfl
@[simp] theorem raise_fault (e : Cause) (i0 i1 : Int) (s : State) : (raise e i0 i1 s).fault = true := rfl
@[simp] theorem raise_tabv (e : Cause) (i0 i1 : Int) (s : State) : (raise e i0 i1 s).tabv = s.tabv := rfl
@[simp] theorem raise_tabax (e : Cause) (i0 i1 : Int) (s : State) : (raise e i0 i1 s).tabax = s.tabax := rfl
@[simp] theorem raise_tabmode (e : Cause) (i0 i1 : Int) (s : State) : (raise e i0 i1 s).tabmode = s.tabmode := rfl
@[simp] theorem raise_err (e : Cause) (i0 i1 : Int) (s : State) : (raise e i0 i1 s).err = causeCode e := rfl
@[simp] theorem raise_info0 (e : Cause) (i0 i1 : Int) (s : State) : (raise e i0 i1 s).info0 = BitVec.ofInt 32 i0 := rfl
@[simp] theorem raise_info1 (e : Cause) (i0 i1 : Int) (s : State) : (raise e i0 i1 s).info1 = BitVec.ofInt 32 i1 := rfl
@[simp] theorem raise_src (e : Cause) (i0 i1 : Int) (s : State) : (raise e i0 i1 s).src = s.src := rfl
@[simp] theorem raise_mid (e : Cause) (i0 i1 : Int) (s : State) : (raise e i0 i1 s).mid = s.mid := rfl
@[simp] theorem raise_dst (e : Cause) (i0 i1 : Int) (s : State) : (raise e i0 i1 s).dst = s.dst := rfl
@[simp] theorem raise_ctab (e : Cause) (i0 i1 : Int) (s : State) : (raise e i0 i1 s).ctab = s.ctab := rfl
@[simp] theorem raise_byt (e : Cause) (i0 i1 : Int) (s : State) : (raise e i0 i1 s).byt = s.byt := rfl
@[simp] theorem raise_epoch (e : Cause) (i0 i1 : Int) (s : State) : (raise e i0 i1 s).epoch = s.epoch := rfl
@[simp] theorem raise_host (e : Cause) (i0 i1 : Int) (s : State) : (raise e i0 i1 s).host = s.host := rfl

/-! ### dropTable -/

@[simp] theorem dropTable_srcW (s : State) : (dropTable s).srcW = s.srcW := rfl
@[simp] theorem dropTable_srcH (s : State) : (dropTable s).srcH = s.srcH := rfl
@[simp] theorem dropTable_dstW (s : State) : (dropTable s).dstW = s.dstW := rfl
@[simp] theorem dropTable_dstH (s : State) : (dropTable s).dstH = s.dstH := rfl
@[simp] theorem dropTable_chans (s : State) : (dropTable s).chans = s.chans := rfl
@[simp] theorem dropTable_depth (s : State) : (dropTable s).depth = s.depth := rfl
@[simp] theorem dropTable_ksel (s : State) : (dropTable s).ksel = s.ksel := rfl
@[simp] theorem dropTable_x (s : State) : (dropTable s).x = s.x := rfl
@[simp] theorem dropTable_y (s : State) : (dropTable s).y = s.y := rfl
@[simp] theorem dropTable_smp (s : State) : (dropTable s).smp = s.smp := rfl
@[simp] theorem dropTable_fault (s : State) : (dropTable s).fault = s.fault := rfl
@[simp] theorem dropTable_tabv (s : State) : (dropTable s).tabv = false := rfl
@[simp] theorem dropTable_tabax (s : State) : (dropTable s).tabax = s.tabax := rfl
@[simp] theorem dropTable_tabmode (s : State) : (dropTable s).tabmode = s.tabmode := rfl
@[simp] theorem dropTable_err (s : State) : (dropTable s).err = s.err := rfl
@[simp] theorem dropTable_info0 (s : State) : (dropTable s).info0 = s.info0 := rfl
@[simp] theorem dropTable_info1 (s : State) : (dropTable s).info1 = s.info1 := rfl
@[simp] theorem dropTable_src (s : State) : (dropTable s).src = s.src := rfl
@[simp] theorem dropTable_mid (s : State) : (dropTable s).mid = s.mid := rfl
@[simp] theorem dropTable_dst (s : State) : (dropTable s).dst = s.dst := rfl
@[simp] theorem dropTable_ctab (s : State) : (dropTable s).ctab = s.ctab := rfl
@[simp] theorem dropTable_byt (s : State) : (dropTable s).byt = s.byt := rfl
@[simp] theorem dropTable_epoch (s : State) : (dropTable s).epoch = s.epoch := rfl
@[simp] theorem dropTable_host (s : State) : (dropTable s).host = s.host := rfl

/-! ### startTable -/

@[simp] theorem startTable_srcW (a : Axis) (h : Bool) (s : State) : (startTable a h s).srcW = s.srcW := rfl
@[simp] theorem startTable_srcH (a : Axis) (h : Bool) (s : State) : (startTable a h s).srcH = s.srcH := rfl
@[simp] theorem startTable_dstW (a : Axis) (h : Bool) (s : State) : (startTable a h s).dstW = s.dstW := rfl
@[simp] theorem startTable_dstH (a : Axis) (h : Bool) (s : State) : (startTable a h s).dstH = s.dstH := rfl
@[simp] theorem startTable_chans (a : Axis) (h : Bool) (s : State) : (startTable a h s).chans = s.chans := rfl
@[simp] theorem startTable_depth (a : Axis) (h : Bool) (s : State) : (startTable a h s).depth = s.depth := rfl
@[simp] theorem startTable_ksel (a : Axis) (h : Bool) (s : State) : (startTable a h s).ksel = s.ksel := rfl
@[simp] theorem startTable_x (a : Axis) (h : Bool) (s : State) : (startTable a h s).x = s.x := rfl
@[simp] theorem startTable_y (a : Axis) (h : Bool) (s : State) : (startTable a h s).y = s.y := rfl
@[simp] theorem startTable_smp (a : Axis) (h : Bool) (s : State) : (startTable a h s).smp = s.smp := rfl
@[simp] theorem startTable_fault (a : Axis) (h : Bool) (s : State) : (startTable a h s).fault = s.fault := rfl
@[simp] theorem startTable_tabv (a : Axis) (h : Bool) (s : State) : (startTable a h s).tabv = false := rfl
@[simp] theorem startTable_tabax (a : Axis) (h : Bool) (s : State) : (startTable a h s).tabax = a := rfl
@[simp] theorem startTable_tabmode (a : Axis) (h : Bool) (s : State) : (startTable a h s).tabmode = if h then .shrink else .enlarge := rfl
@[simp] theorem startTable_err (a : Axis) (h : Bool) (s : State) : (startTable a h s).err = s.err := rfl
@[simp] theorem startTable_info0 (a : Axis) (h : Bool) (s : State) : (startTable a h s).info0 = s.info0 := rfl
@[simp] theorem startTable_info1 (a : Axis) (h : Bool) (s : State) : (startTable a h s).info1 = s.info1 := rfl
@[simp] theorem startTable_src (a : Axis) (h : Bool) (s : State) : (startTable a h s).src = s.src := rfl
@[simp] theorem startTable_mid (a : Axis) (h : Bool) (s : State) : (startTable a h s).mid = s.mid := rfl
@[simp] theorem startTable_dst (a : Axis) (h : Bool) (s : State) : (startTable a h s).dst = s.dst := rfl
@[simp] theorem startTable_ctab (a : Axis) (h : Bool) (s : State) : (startTable a h s).ctab = s.ctab := rfl
@[simp] theorem startTable_byt (a : Axis) (h : Bool) (s : State) : (startTable a h s).byt = s.byt := rfl
@[simp] theorem startTable_epoch (a : Axis) (h : Bool) (s : State) : (startTable a h s).epoch = s.epoch := rfl
@[simp] theorem startTable_host (a : Axis) (h : Bool) (s : State) : (startTable a h s).host = s.host := rfl

/-! ### completeTable -/

@[simp] theorem completeTable_srcW (t : Table) (s : State) : (completeTable t s).srcW = s.srcW := rfl
@[simp] theorem completeTable_srcH (t : Table) (s : State) : (completeTable t s).srcH = s.srcH := rfl
@[simp] theorem completeTable_dstW (t : Table) (s : State) : (completeTable t s).dstW = s.dstW := rfl
@[simp] theorem completeTable_dstH (t : Table) (s : State) : (completeTable t s).dstH = s.dstH := rfl
@[simp] theorem completeTable_chans (t : Table) (s : State) : (completeTable t s).chans = s.chans := rfl
@[simp] theorem completeTable_depth (t : Table) (s : State) : (completeTable t s).depth = s.depth := rfl
@[simp] theorem completeTable_ksel (t : Table) (s : State) : (completeTable t s).ksel = s.ksel := rfl
@[simp] theorem completeTable_x (t : Table) (s : State) : (completeTable t s).x = s.x := rfl
@[simp] theorem completeTable_y (t : Table) (s : State) : (completeTable t s).y = s.y := rfl
@[simp] theorem completeTable_smp (t : Table) (s : State) : (completeTable t s).smp = s.smp := rfl
@[simp] theorem completeTable_fault (t : Table) (s : State) : (completeTable t s).fault = s.fault := rfl
@[simp] theorem completeTable_tabv (t : Table) (s : State) : (completeTable t s).tabv = true := rfl
@[simp] theorem completeTable_tabax (t : Table) (s : State) : (completeTable t s).tabax = s.tabax := rfl
@[simp] theorem completeTable_tabmode (t : Table) (s : State) : (completeTable t s).tabmode = s.tabmode := rfl
@[simp] theorem completeTable_err (t : Table) (s : State) : (completeTable t s).err = s.err := rfl
@[simp] theorem completeTable_info0 (t : Table) (s : State) : (completeTable t s).info0 = s.info0 := rfl
@[simp] theorem completeTable_info1 (t : Table) (s : State) : (completeTable t s).info1 = s.info1 := rfl
@[simp] theorem completeTable_src (t : Table) (s : State) : (completeTable t s).src = s.src := rfl
@[simp] theorem completeTable_mid (t : Table) (s : State) : (completeTable t s).mid = s.mid := rfl
@[simp] theorem completeTable_dst (t : Table) (s : State) : (completeTable t s).dst = s.dst := rfl
@[simp] theorem completeTable_ctab (t : Table) (s : State) : (completeTable t s).ctab = t := rfl
@[simp] theorem completeTable_byt (t : Table) (s : State) : (completeTable t s).byt = s.byt := rfl
@[simp] theorem completeTable_epoch (t : Table) (s : State) : (completeTable t s).epoch = s.epoch := rfl
@[simp] theorem completeTable_host (t : Table) (s : State) : (completeTable t s).host = s.host := rfl

/-! ### byteWrite -/

@[simp] theorem byteWrite_srcW (c : Config) (a : Nat) (v : Byte) (s : State) : (byteWrite c a v s).srcW = s.srcW := rfl
@[simp] theorem byteWrite_srcH (c : Config) (a : Nat) (v : Byte) (s : State) : (byteWrite c a v s).srcH = s.srcH := rfl
@[simp] theorem byteWrite_dstW (c : Config) (a : Nat) (v : Byte) (s : State) : (byteWrite c a v s).dstW = s.dstW := rfl
@[simp] theorem byteWrite_dstH (c : Config) (a : Nat) (v : Byte) (s : State) : (byteWrite c a v s).dstH = s.dstH := rfl
@[simp] theorem byteWrite_chans (c : Config) (a : Nat) (v : Byte) (s : State) : (byteWrite c a v s).chans = s.chans := rfl
@[simp] theorem byteWrite_depth (c : Config) (a : Nat) (v : Byte) (s : State) : (byteWrite c a v s).depth = s.depth := rfl
@[simp] theorem byteWrite_ksel (c : Config) (a : Nat) (v : Byte) (s : State) : (byteWrite c a v s).ksel = s.ksel := rfl
@[simp] theorem byteWrite_x (c : Config) (a : Nat) (v : Byte) (s : State) : (byteWrite c a v s).x = s.x := rfl
@[simp] theorem byteWrite_y (c : Config) (a : Nat) (v : Byte) (s : State) : (byteWrite c a v s).y = s.y := rfl
@[simp] theorem byteWrite_smp (c : Config) (a : Nat) (v : Byte) (s : State) : (byteWrite c a v s).smp = s.smp := rfl
@[simp] theorem byteWrite_fault (c : Config) (a : Nat) (v : Byte) (s : State) : (byteWrite c a v s).fault = s.fault := rfl
@[simp] theorem byteWrite_tabv (c : Config) (a : Nat) (v : Byte) (s : State) : (byteWrite c a v s).tabv = s.tabv := rfl
@[simp] theorem byteWrite_tabax (c : Config) (a : Nat) (v : Byte) (s : State) : (byteWrite c a v s).tabax = s.tabax := rfl
@[simp] theorem byteWrite_tabmode (c : Config) (a : Nat) (v : Byte) (s : State) : (byteWrite c a v s).tabmode = s.tabmode := rfl
@[simp] theorem byteWrite_err (c : Config) (a : Nat) (v : Byte) (s : State) : (byteWrite c a v s).err = s.err := rfl
@[simp] theorem byteWrite_info0 (c : Config) (a : Nat) (v : Byte) (s : State) : (byteWrite c a v s).info0 = s.info0 := rfl
@[simp] theorem byteWrite_info1 (c : Config) (a : Nat) (v : Byte) (s : State) : (byteWrite c a v s).info1 = s.info1 := rfl
@[simp] theorem byteWrite_src (c : Config) (a : Nat) (v : Byte) (s : State) : (byteWrite c a v s).src = s.src := rfl
@[simp] theorem byteWrite_mid (c : Config) (a : Nat) (v : Byte) (s : State) : (byteWrite c a v s).mid = s.mid := rfl
@[simp] theorem byteWrite_dst (c : Config) (a : Nat) (v : Byte) (s : State) : (byteWrite c a v s).dst = s.dst := rfl
@[simp] theorem byteWrite_ctab (c : Config) (a : Nat) (v : Byte) (s : State) : (byteWrite c a v s).ctab = s.ctab := rfl
@[simp] theorem byteWrite_byt (c : Config) (a : Nat) (v : Byte) (s : State) : (byteWrite c a v s).byt = memWrite (c.powerOnByte s.epoch) a v s.byt := rfl
@[simp] theorem byteWrite_epoch (c : Config) (a : Nat) (v : Byte) (s : State) : (byteWrite c a v s).epoch = s.epoch := rfl
@[simp] theorem byteWrite_host (c : Config) (a : Nat) (v : Byte) (s : State) : (byteWrite c a v s).host = s.host := rfl

/-! ### byteFill -/

@[simp] theorem byteFill_srcW (c : Config) (n : Nat) (f : Nat → Byte) (s : State) : (byteFill c n f s).srcW = s.srcW := rfl
@[simp] theorem byteFill_srcH (c : Config) (n : Nat) (f : Nat → Byte) (s : State) : (byteFill c n f s).srcH = s.srcH := rfl
@[simp] theorem byteFill_dstW (c : Config) (n : Nat) (f : Nat → Byte) (s : State) : (byteFill c n f s).dstW = s.dstW := rfl
@[simp] theorem byteFill_dstH (c : Config) (n : Nat) (f : Nat → Byte) (s : State) : (byteFill c n f s).dstH = s.dstH := rfl
@[simp] theorem byteFill_chans (c : Config) (n : Nat) (f : Nat → Byte) (s : State) : (byteFill c n f s).chans = s.chans := rfl
@[simp] theorem byteFill_depth (c : Config) (n : Nat) (f : Nat → Byte) (s : State) : (byteFill c n f s).depth = s.depth := rfl
@[simp] theorem byteFill_ksel (c : Config) (n : Nat) (f : Nat → Byte) (s : State) : (byteFill c n f s).ksel = s.ksel := rfl
@[simp] theorem byteFill_x (c : Config) (n : Nat) (f : Nat → Byte) (s : State) : (byteFill c n f s).x = s.x := rfl
@[simp] theorem byteFill_y (c : Config) (n : Nat) (f : Nat → Byte) (s : State) : (byteFill c n f s).y = s.y := rfl
@[simp] theorem byteFill_smp (c : Config) (n : Nat) (f : Nat → Byte) (s : State) : (byteFill c n f s).smp = s.smp := rfl
@[simp] theorem byteFill_fault (c : Config) (n : Nat) (f : Nat → Byte) (s : State) : (byteFill c n f s).fault = s.fault := rfl
@[simp] theorem byteFill_tabv (c : Config) (n : Nat) (f : Nat → Byte) (s : State) : (byteFill c n f s).tabv = s.tabv := rfl
@[simp] theorem byteFill_tabax (c : Config) (n : Nat) (f : Nat → Byte) (s : State) : (byteFill c n f s).tabax = s.tabax := rfl
@[simp] theorem byteFill_tabmode (c : Config) (n : Nat) (f : Nat → Byte) (s : State) : (byteFill c n f s).tabmode = s.tabmode := rfl
@[simp] theorem byteFill_err (c : Config) (n : Nat) (f : Nat → Byte) (s : State) : (byteFill c n f s).err = s.err := rfl
@[simp] theorem byteFill_info0 (c : Config) (n : Nat) (f : Nat → Byte) (s : State) : (byteFill c n f s).info0 = s.info0 := rfl
@[simp] theorem byteFill_info1 (c : Config) (n : Nat) (f : Nat → Byte) (s : State) : (byteFill c n f s).info1 = s.info1 := rfl
@[simp] theorem byteFill_src (c : Config) (n : Nat) (f : Nat → Byte) (s : State) : (byteFill c n f s).src = s.src := rfl
@[simp] theorem byteFill_mid (c : Config) (n : Nat) (f : Nat → Byte) (s : State) : (byteFill c n f s).mid = s.mid := rfl
@[simp] theorem byteFill_dst (c : Config) (n : Nat) (f : Nat → Byte) (s : State) : (byteFill c n f s).dst = s.dst := rfl
@[simp] theorem byteFill_ctab (c : Config) (n : Nat) (f : Nat → Byte) (s : State) : (byteFill c n f s).ctab = s.ctab := rfl
@[simp] theorem byteFill_byt (c : Config) (n : Nat) (f : Nat → Byte) (s : State) : (byteFill c n f s).byt = memFill (c.powerOnByte s.epoch) n f s.byt := rfl
@[simp] theorem byteFill_epoch (c : Config) (n : Nat) (f : Nat → Byte) (s : State) : (byteFill c n f s).epoch = s.epoch := rfl
@[simp] theorem byteFill_host (c : Config) (n : Nat) (f : Nat → Byte) (s : State) : (byteFill c n f s).host = s.host := rfl

/-! ### assertReset -/

@[simp] theorem assertReset_srcW (s : State) : (assertReset s).srcW = 0 := rfl
@[simp] theorem assertReset_srcH (s : State) : (assertReset s).srcH = 0 := rfl
@[simp] theorem assertReset_dstW (s : State) : (assertReset s).dstW = 0 := rfl
@[simp] theorem assertReset_dstH (s : State) : (assertReset s).dstH = 0 := rfl
@[simp] theorem assertReset_chans (s : State) : (assertReset s).chans = 0 := rfl
@[simp] theorem assertReset_depth (s : State) : (assertReset s).depth = 0 := rfl
@[simp] theorem assertReset_ksel (s : State) : (assertReset s).ksel = 0 := rfl
@[simp] theorem assertReset_x (s : State) : (assertReset s).x = 0 := rfl
@[simp] theorem assertReset_y (s : State) : (assertReset s).y = 0 := rfl
@[simp] theorem assertReset_smp (s : State) : (assertReset s).smp = ⟨0, 0, 0, 0⟩ := rfl
@[simp] theorem assertReset_fault (s : State) : (assertReset s).fault = false := rfl
@[simp] theorem assertReset_tabv (s : State) : (assertReset s).tabv = false := rfl
@[simp] theorem assertReset_tabax (s : State) : (assertReset s).tabax = .x := rfl
@[simp] theorem assertReset_tabmode (s : State) : (assertReset s).tabmode = .enlarge := rfl
@[simp] theorem assertReset_err (s : State) : (assertReset s).err = 0 := rfl
@[simp] theorem assertReset_info0 (s : State) : (assertReset s).info0 = 0 := rfl
@[simp] theorem assertReset_info1 (s : State) : (assertReset s).info1 = 0 := rfl
@[simp] theorem assertReset_src (s : State) : (assertReset s).src = [] := rfl
@[simp] theorem assertReset_mid (s : State) : (assertReset s).mid = [] := rfl
@[simp] theorem assertReset_dst (s : State) : (assertReset s).dst = [] := rfl
@[simp] theorem assertReset_ctab (s : State) : (assertReset s).ctab = [] := rfl
@[simp] theorem assertReset_byt (s : State) : (assertReset s).byt = [] := rfl
@[simp] theorem assertReset_epoch (s : State) : (assertReset s).epoch = s.epoch + 1 := rfl
@[simp] theorem assertReset_host (s : State) : (assertReset s).host = s.host := rfl

/-! ### setBufMem, cellWrite, cellFill -/

@[simp] theorem setBufMem_srcW (b : Buf) (m : List (Nat × Sample)) (s : State) : (setBufMem b m s).srcW = s.srcW := by cases b <;> rfl
@[simp] theorem setBufMem_srcH (b : Buf) (m : List (Nat × Sample)) (s : State) : (setBufMem b m s).srcH = s.srcH := by cases b <;> rfl
@[simp] theorem setBufMem_dstW (b : Buf) (m : List (Nat × Sample)) (s : State) : (setBufMem b m s).dstW = s.dstW := by cases b <;> rfl
@[simp] theorem setBufMem_dstH (b : Buf) (m : List (Nat × Sample)) (s : State) : (setBufMem b m s).dstH = s.dstH := by cases b <;> rfl
@[simp] theorem setBufMem_chans (b : Buf) (m : List (Nat × Sample)) (s : State) : (setBufMem b m s).chans = s.chans := by cases b <;> rfl
@[simp] theorem setBufMem_depth (b : Buf) (m : List (Nat × Sample)) (s : State) : (setBufMem b m s).depth = s.depth := by cases b <;> rfl
@[simp] theorem setBufMem_ksel (b : Buf) (m : List (Nat × Sample)) (s : State) : (setBufMem b m s).ksel = s.ksel := by cases b <;> rfl
@[simp] theorem setBufMem_x (b : Buf) (m : List (Nat × Sample)) (s : State) : (setBufMem b m s).x = s.x := by cases b <;> rfl
@[simp] theorem setBufMem_y (b : Buf) (m : List (Nat × Sample)) (s : State) : (setBufMem b m s).y = s.y := by cases b <;> rfl
@[simp] theorem setBufMem_smp (b : Buf) (m : List (Nat × Sample)) (s : State) : (setBufMem b m s).smp = s.smp := by cases b <;> rfl
@[simp] theorem setBufMem_fault (b : Buf) (m : List (Nat × Sample)) (s : State) : (setBufMem b m s).fault = s.fault := by cases b <;> rfl
@[simp] theorem setBufMem_tabv (b : Buf) (m : List (Nat × Sample)) (s : State) : (setBufMem b m s).tabv = s.tabv := by cases b <;> rfl
@[simp] theorem setBufMem_tabax (b : Buf) (m : List (Nat × Sample)) (s : State) : (setBufMem b m s).tabax = s.tabax := by cases b <;> rfl
@[simp] theorem setBufMem_tabmode (b : Buf) (m : List (Nat × Sample)) (s : State) : (setBufMem b m s).tabmode = s.tabmode := by cases b <;> rfl
@[simp] theorem setBufMem_err (b : Buf) (m : List (Nat × Sample)) (s : State) : (setBufMem b m s).err = s.err := by cases b <;> rfl
@[simp] theorem setBufMem_info0 (b : Buf) (m : List (Nat × Sample)) (s : State) : (setBufMem b m s).info0 = s.info0 := by cases b <;> rfl
@[simp] theorem setBufMem_info1 (b : Buf) (m : List (Nat × Sample)) (s : State) : (setBufMem b m s).info1 = s.info1 := by cases b <;> rfl
@[simp] theorem setBufMem_ctab (b : Buf) (m : List (Nat × Sample)) (s : State) : (setBufMem b m s).ctab = s.ctab := by cases b <;> rfl
@[simp] theorem setBufMem_byt (b : Buf) (m : List (Nat × Sample)) (s : State) : (setBufMem b m s).byt = s.byt := by cases b <;> rfl
@[simp] theorem setBufMem_epoch (b : Buf) (m : List (Nat × Sample)) (s : State) : (setBufMem b m s).epoch = s.epoch := by cases b <;> rfl
@[simp] theorem setBufMem_host (b : Buf) (m : List (Nat × Sample)) (s : State) : (setBufMem b m s).host = s.host := by cases b <;> rfl

/-- Storage of one buffer is no storage of another (20_memory.md R96). -/
@[simp] theorem bufMem_setBufMem (b b' : Buf) (m : List (Nat × Sample)) (s : State) :
    bufMem b' (setBufMem b m s) = if b' = b then m else bufMem b' s := by
  cases b <;> cases b' <;> rfl

theorem setBufMem_eq (b : Buf) (m : List (Nat × Sample)) (s : State) :
    setBufMem b m s =
      { s with
        src := if b = .src then m else s.src
        mid := if b = .mid then m else s.mid
        dst := if b = .dst then m else s.dst } := by
  cases b <;> rfl

@[simp] theorem bufMem_src (s : State) : bufMem .src s = s.src := rfl
@[simp] theorem bufMem_mid (s : State) : bufMem .mid s = s.mid := rfl
@[simp] theorem bufMem_dst (s : State) : bufMem .dst s = s.dst := rfl

@[simp] theorem cellWrite_srcW (c : Config) (b : Buf) (i : Nat) (v : Sample) (s : State) : (cellWrite c b i v s).srcW = s.srcW := by simp [cellWrite]
@[simp] theorem cellWrite_srcH (c : Config) (b : Buf) (i : Nat) (v : Sample) (s : State) : (cellWrite c b i v s).srcH = s.srcH := by simp [cellWrite]
@[simp] theorem cellWrite_dstW (c : Config) (b : Buf) (i : Nat) (v : Sample) (s : State) : (cellWrite c b i v s).dstW = s.dstW := by simp [cellWrite]
@[simp] theorem cellWrite_dstH (c : Config) (b : Buf) (i : Nat) (v : Sample) (s : State) : (cellWrite c b i v s).dstH = s.dstH := by simp [cellWrite]
@[simp] theorem cellWrite_chans (c : Config) (b : Buf) (i : Nat) (v : Sample) (s : State) : (cellWrite c b i v s).chans = s.chans := by simp [cellWrite]
@[simp] theorem cellWrite_depth (c : Config) (b : Buf) (i : Nat) (v : Sample) (s : State) : (cellWrite c b i v s).depth = s.depth := by simp [cellWrite]
@[simp] theorem cellWrite_ksel (c : Config) (b : Buf) (i : Nat) (v : Sample) (s : State) : (cellWrite c b i v s).ksel = s.ksel := by simp [cellWrite]
@[simp] theorem cellWrite_x (c : Config) (b : Buf) (i : Nat) (v : Sample) (s : State) : (cellWrite c b i v s).x = s.x := by simp [cellWrite]
@[simp] theorem cellWrite_y (c : Config) (b : Buf) (i : Nat) (v : Sample) (s : State) : (cellWrite c b i v s).y = s.y := by simp [cellWrite]
@[simp] theorem cellWrite_smp (c : Config) (b : Buf) (i : Nat) (v : Sample) (s : State) : (cellWrite c b i v s).smp = s.smp := by simp [cellWrite]
@[simp] theorem cellWrite_fault (c : Config) (b : Buf) (i : Nat) (v : Sample) (s : State) : (cellWrite c b i v s).fault = s.fault := by simp [cellWrite]
@[simp] theorem cellWrite_tabv (c : Config) (b : Buf) (i : Nat) (v : Sample) (s : State) : (cellWrite c b i v s).tabv = s.tabv := by simp [cellWrite]
@[simp] theorem cellWrite_tabax (c : Config) (b : Buf) (i : Nat) (v : Sample) (s : State) : (cellWrite c b i v s).tabax = s.tabax := by simp [cellWrite]
@[simp] theorem cellWrite_tabmode (c : Config) (b : Buf) (i : Nat) (v : Sample) (s : State) : (cellWrite c b i v s).tabmode = s.tabmode := by simp [cellWrite]
@[simp] theorem cellWrite_err (c : Config) (b : Buf) (i : Nat) (v : Sample) (s : State) : (cellWrite c b i v s).err = s.err := by simp [cellWrite]
@[simp] theorem cellWrite_info0 (c : Config) (b : Buf) (i : Nat) (v : Sample) (s : State) : (cellWrite c b i v s).info0 = s.info0 := by simp [cellWrite]
@[simp] theorem cellWrite_info1 (c : Config) (b : Buf) (i : Nat) (v : Sample) (s : State) : (cellWrite c b i v s).info1 = s.info1 := by simp [cellWrite]
@[simp] theorem cellWrite_ctab (c : Config) (b : Buf) (i : Nat) (v : Sample) (s : State) : (cellWrite c b i v s).ctab = s.ctab := by simp [cellWrite]
@[simp] theorem cellWrite_byt (c : Config) (b : Buf) (i : Nat) (v : Sample) (s : State) : (cellWrite c b i v s).byt = s.byt := by simp [cellWrite]
@[simp] theorem cellWrite_epoch (c : Config) (b : Buf) (i : Nat) (v : Sample) (s : State) : (cellWrite c b i v s).epoch = s.epoch := by simp [cellWrite]
@[simp] theorem cellWrite_host (c : Config) (b : Buf) (i : Nat) (v : Sample) (s : State) : (cellWrite c b i v s).host = s.host := by simp [cellWrite]

@[simp] theorem cellFill_srcW (c : Config) (b : Buf) (n : Nat) (f : Nat → Sample) (s : State) : (cellFill c b n f s).srcW = s.srcW := by simp [cellFill]
@[simp] theorem cellFill_srcH (c : Config) (b : Buf) (n : Nat) (f : Nat → Sample) (s : State) : (cellFill c b n f s).srcH = s.srcH := by simp [cellFill]
@[simp] theorem cellFill_dstW (c : Config) (b : Buf) (n : Nat) (f : Nat → Sample) (s : State) : (cellFill c b n f s).dstW = s.dstW := by simp [cellFill]
@[simp] theorem cellFill_dstH (c : Config) (b : Buf) (n : Nat) (f : Nat → Sample) (s : State) : (cellFill c b n f s).dstH = s.dstH := by simp [cellFill]
@[simp] theorem cellFill_chans (c : Config) (b : Buf) (n : Nat) (f : Nat → Sample) (s : State) : (cellFill c b n f s).chans = s.chans := by simp [cellFill]
@[simp] theorem cellFill_depth (c : Config) (b : Buf) (n : Nat) (f : Nat → Sample) (s : State) : (cellFill c b n f s).depth = s.depth := by simp [cellFill]
@[simp] theorem cellFill_ksel (c : Config) (b : Buf) (n : Nat) (f : Nat → Sample) (s : State) : (cellFill c b n f s).ksel = s.ksel := by simp [cellFill]
@[simp] theorem cellFill_x (c : Config) (b : Buf) (n : Nat) (f : Nat → Sample) (s : State) : (cellFill c b n f s).x = s.x := by simp [cellFill]
@[simp] theorem cellFill_y (c : Config) (b : Buf) (n : Nat) (f : Nat → Sample) (s : State) : (cellFill c b n f s).y = s.y := by simp [cellFill]
@[simp] theorem cellFill_smp (c : Config) (b : Buf) (n : Nat) (f : Nat → Sample) (s : State) : (cellFill c b n f s).smp = s.smp := by simp [cellFill]
@[simp] theorem cellFill_fault (c : Config) (b : Buf) (n : Nat) (f : Nat → Sample) (s : State) : (cellFill c b n f s).fault = s.fault := by simp [cellFill]
@[simp] theorem cellFill_tabv (c : Config) (b : Buf) (n : Nat) (f : Nat → Sample) (s : State) : (cellFill c b n f s).tabv = s.tabv := by simp [cellFill]
@[simp] theorem cellFill_tabax (c : Config) (b : Buf) (n : Nat) (f : Nat → Sample) (s : State) : (cellFill c b n f s).tabax = s.tabax := by simp [cellFill]
@[simp] theorem cellFill_tabmode (c : Config) (b : Buf) (n : Nat) (f : Nat → Sample) (s : State) : (cellFill c b n f s).tabmode = s.tabmode := by simp [cellFill]
@[simp] theorem cellFill_err (c : Config) (b : Buf) (n : Nat) (f : Nat → Sample) (s : State) : (cellFill c b n f s).err = s.err := by simp [cellFill]
@[simp] theorem cellFill_info0 (c : Config) (b : Buf) (n : Nat) (f : Nat → Sample) (s : State) : (cellFill c b n f s).info0 = s.info0 := by simp [cellFill]
@[simp] theorem cellFill_info1 (c : Config) (b : Buf) (n : Nat) (f : Nat → Sample) (s : State) : (cellFill c b n f s).info1 = s.info1 := by simp [cellFill]
@[simp] theorem cellFill_ctab (c : Config) (b : Buf) (n : Nat) (f : Nat → Sample) (s : State) : (cellFill c b n f s).ctab = s.ctab := by simp [cellFill]
@[simp] theorem cellFill_byt (c : Config) (b : Buf) (n : Nat) (f : Nat → Sample) (s : State) : (cellFill c b n f s).byt = s.byt := by simp [cellFill]
@[simp] theorem cellFill_epoch (c : Config) (b : Buf) (n : Nat) (f : Nat → Sample) (s : State) : (cellFill c b n f s).epoch = s.epoch := by simp [cellFill]
@[simp] theorem cellFill_host (c : Config) (b : Buf) (n : Nat) (f : Nat → Sample) (s : State) : (cellFill c b n f s).host = s.host := by simp [cellFill]

/-! ### regWrite and setBody: the fields no register write touches -/

@[simp] theorem regWrite_fault (r : Reg) (v : Field20) (s : State) : (regWrite r v s).fault = s.fault := by cases r <;> rfl
@[simp] theorem setBody_fault (r : Reg) (v : Field20) (s : State) : (setBody r v s).fault = s.fault := by cases r <;> rfl
@[simp] theorem regWrite_tabax (r : Reg) (v : Field20) (s : State) : (regWrite r v s).tabax = s.tabax := by cases r <;> rfl
@[simp] theorem setBody_tabax (r : Reg) (v : Field20) (s : State) : (setBody r v s).tabax = s.tabax := by cases r <;> rfl
@[simp] theorem regWrite_tabmode (r : Reg) (v : Field20) (s : State) : (regWrite r v s).tabmode = s.tabmode := by cases r <;> rfl
@[simp] theorem setBody_tabmode (r : Reg) (v : Field20) (s : State) : (setBody r v s).tabmode = s.tabmode := by cases r <;> rfl
@[simp] theorem regWrite_err (r : Reg) (v : Field20) (s : State) : (regWrite r v s).err = s.err := by cases r <;> rfl
@[simp] theorem setBody_err (r : Reg) (v : Field20) (s : State) : (setBody r v s).err = s.err := by cases r <;> rfl
@[simp] theorem regWrite_info0 (r : Reg) (v : Field20) (s : State) : (regWrite r v s).info0 = s.info0 := by cases r <;> rfl
@[simp] theorem setBody_info0 (r : Reg) (v : Field20) (s : State) : (setBody r v s).info0 = s.info0 := by cases r <;> rfl
@[simp] theorem regWrite_info1 (r : Reg) (v : Field20) (s : State) : (regWrite r v s).info1 = s.info1 := by cases r <;> rfl
@[simp] theorem setBody_info1 (r : Reg) (v : Field20) (s : State) : (setBody r v s).info1 = s.info1 := by cases r <;> rfl
@[simp] theorem regWrite_src (r : Reg) (v : Field20) (s : State) : (regWrite r v s).src = s.src := by cases r <;> rfl
@[simp] theorem setBody_src (r : Reg) (v : Field20) (s : State) : (setBody r v s).src = s.src := by cases r <;> rfl
@[simp] theorem regWrite_mid (r : Reg) (v : Field20) (s : State) : (regWrite r v s).mid = s.mid := by cases r <;> rfl
@[simp] theorem setBody_mid (r : Reg) (v : Field20) (s : State) : (setBody r v s).mid = s.mid := by cases r <;> rfl
@[simp] theorem regWrite_dst (r : Reg) (v : Field20) (s : State) : (regWrite r v s).dst = s.dst := by cases r <;> rfl
@[simp] theorem setBody_dst (r : Reg) (v : Field20) (s : State) : (setBody r v s).dst = s.dst := by cases r <;> rfl
@[simp] theorem regWrite_ctab (r : Reg) (v : Field20) (s : State) : (regWrite r v s).ctab = s.ctab := by cases r <;> rfl
@[simp] theorem setBody_ctab (r : Reg) (v : Field20) (s : State) : (setBody r v s).ctab = s.ctab := by cases r <;> rfl
@[simp] theorem regWrite_byt (r : Reg) (v : Field20) (s : State) : (regWrite r v s).byt = s.byt := by cases r <;> rfl
@[simp] theorem setBody_byt (r : Reg) (v : Field20) (s : State) : (setBody r v s).byt = s.byt := by cases r <;> rfl
@[simp] theorem regWrite_epoch (r : Reg) (v : Field20) (s : State) : (regWrite r v s).epoch = s.epoch := by cases r <;> rfl
@[simp] theorem setBody_epoch (r : Reg) (v : Field20) (s : State) : (setBody r v s).epoch = s.epoch := by cases r <;> rfl
@[simp] theorem regWrite_host (r : Reg) (v : Field20) (s : State) : (regWrite r v s).host = s.host := by cases r <;> rfl
@[simp] theorem setBody_host (r : Reg) (v : Field20) (s : State) : (setBody r v s).host = s.host := by cases r <;> rfl

/-- `SET` of registers 0 to 6 drops the table, of any other register keeps it (40_config_and_pixelbuffer.md R161). -/
theorem setBody_tabv (r : Reg) (v : Field20) (s : State) :
    (setBody r v s).tabv = if isConfigReg r then false else s.tabv := by
  cases r <;> rfl

end Sys2Proof.Machine
end

