-- ==== Sys2Proof/Laws/Memory.lean ====
section
/-! SUPPORT. The laws of sparse memories: what a read gives after each operation, and that every operation keeps the
canonical form and the bounds. -/

namespace Sys2Proof.Machine

variable {α : Type} (d : Nat → α)

@[simp] theorem memRead_nil (a : Nat) : memRead d [] a = d a := rfl

theorem memRead_memErase (a a' : Nat) (m : List (Nat × α)) :
    memRead d (memErase a m) a' = if a' = a then d a else memRead d m a' := by
  induction m with
  | nil => by_cases h : a' = a <;> simp [memErase, h]
  | cons e m ih =>
    obtain ⟨b, v⟩ := e
    simp only [memErase] at ih ⊢
    by_cases hb : b = a
    · subst hb
      simp only [ne_eq, not_true_eq_false, decide_false, List.filter_cons, Bool.false_eq_true,
        if_false, ih, memRead]
      by_cases h : a' = b
      · simp [h]
      · simp [h, Ne.symm h]
    · simp only [ne_eq, List.filter_cons, hb, not_false_eq_true, decide_true, if_true, memRead, ih]
      by_cases h : b = a'
      · subst h; simp [hb]
      · simp [h]

theorem memRead_memInsert (a a' : Nat) (v : α) (m : List (Nat × α)) :
    memRead d (memInsert a v m) a' = if a' = a then v else memRead d m a' := by
  induction m with
  | nil =>
    by_cases h : a' = a
    · simp [memInsert, memRead, h]
    · simp [memInsert, memRead, h, Ne.symm h]
  | cons e m ih =>
    obtain ⟨b, w⟩ := e
    simp only [memInsert]
    split
    · by_cases h : a' = a
      · simp [memRead, h]
      · simp [memRead, h, Ne.symm h]
    · split
      · rename_i hab
        subst hab
        by_cases h : a' = a
        · simp [memRead, h]
        · simp [memRead, h, Ne.symm h]
      · rename_i hab
        simp only [memRead, ih]
        by_cases h : b = a'
        · subst h; simp [Ne.symm hab]
        · simp [h]

variable [DecidableEq α]

/-- A read after a write gives the value written at its address and the old value elsewhere. -/
theorem memRead_memWrite (a a' : Nat) (v : α) (m : List (Nat × α)) :
    memRead d (memWrite d a v m) a' = if a' = a then v else memRead d m a' := by
  unfold memWrite
  split
  · rename_i h; rw [memRead_memErase, h]
  · exact memRead_memInsert d a a' v m

omit [DecidableEq α] in
open Classical in
theorem memRead_append (m m' : List (Nat × α)) (a : Nat) :
    memRead d (m ++ m') a = if ∃ v, (a, v) ∈ m then memRead d m a else memRead d m' a := by
  induction m with
  | nil => simp
  | cons e m ih =>
    obtain ⟨b, v⟩ := e
    by_cases h : b = a
    · subst h
      have : ∃ w, (b, w) ∈ (b, v) :: m := ⟨v, by simp⟩
      rw [if_pos this]
      simp [memRead]
    · have h' : (∃ w, (a, w) ∈ (b, v) :: m) ↔ ∃ w, (a, w) ∈ m := by
        simp [Ne.symm h]
      simp only [List.cons_append, memRead, h, if_false, ih, h']

theorem memRead_filterMap_range (n : Nat) (f : Nat → α) (a : Nat) :
    memRead d ((List.range n).filterMap fun a => if f a = d a then none else some (a, f a)) a =
      if a < n then f a else d a := by
  induction n with
  | zero => simp
  | succ n ih =>
    rw [List.range_succ, List.filterMap_append, memRead_append, ih]
    split
    · rename_i h
      obtain ⟨v, hv⟩ := h
      have : a < n := by
        simp only [List.mem_filterMap, List.mem_range] at hv
        obtain ⟨b, hb, hv⟩ := hv
        split at hv
        · cases hv
        · simp only [Option.some.injEq, Prod.mk.injEq] at hv; omega
      simp [this, Nat.lt_succ_of_lt this]
    · rename_i h
      by_cases hn : a = n
      · subst hn
        by_cases hf : f a = d a <;> simp [hf, memRead]
      · by_cases ha : a < n
        · have hf : f a = d a := by
            by_contra hf
            exact h ⟨f a, by simp only [List.mem_filterMap, List.mem_range]; exact ⟨a, ha, by simp [hf]⟩⟩
          have hlt : a < n + 1 := by omega
          by_cases hfn : f n = d n
          · simp [hfn, hlt, hf]
          · simp [hfn, hlt, hf, memRead, Ne.symm hn]
        · have hlt : ¬ a < n + 1 := by omega
          by_cases hfn : f n = d n
          · simp [hfn, hlt]
          · simp [hfn, hlt, memRead, Ne.symm hn]

omit [DecidableEq α] in
theorem memRead_filter_le (n : Nat) (m : List (Nat × α)) (a : Nat) (h : n ≤ a) :
    memRead d (m.filter fun e => n ≤ e.1) a = memRead d m a := by
  induction m with
  | nil => rfl
  | cons e m ih =>
    obtain ⟨b, v⟩ := e
    by_cases hb : n ≤ b
    · simp only [List.filter_cons, hb, decide_true, if_true, memRead, ih]
    · have : b ≠ a := by omega
      simp only [List.filter_cons, hb, decide_false, Bool.false_eq_true, if_false, memRead, this, ih]

omit [DecidableEq α] in
theorem memRead_filter_gt (n : Nat) (m : List (Nat × α)) (a : Nat) (h : a < n) :
    memRead d (m.filter fun e => n ≤ e.1) a = d a := by
  induction m with
  | nil => rfl
  | cons e m ih =>
    obtain ⟨b, v⟩ := e
    by_cases hb : n ≤ b
    · have : b ≠ a := by omega
      simp only [List.filter_cons, hb, decide_true, if_true, memRead, this, if_false, ih]
    · simp only [List.filter_cons, hb, decide_false, Bool.false_eq_true, if_false, ih]

/-- A read after a bulk write gives the new value below its bound and the old value elsewhere. -/
theorem memRead_memFill (n : Nat) (f : Nat → α) (m : List (Nat × α)) (a : Nat) :
    memRead d (memFill d n f m) a = if a < n then f a else memRead d m a := by
  unfold memFill
  rw [memRead_append, memRead_filterMap_range]
  by_cases h : a < n
  · simp only [h, if_true, memRead_filter_gt d n m a h]
    split
    · rfl
    · rename_i hm
      by_contra hf
      refine hm ⟨f a, ?_⟩
      simp only [List.mem_filterMap, List.mem_range]
      exact ⟨a, h, by simp [Ne.symm hf]⟩
  · simp only [h, if_false, memRead_filter_le d n m a (by omega)]
    split
    · rename_i hm
      obtain ⟨v, hv⟩ := hm
      simp only [List.mem_filterMap, List.mem_range] at hv
      obtain ⟨b, hb, hv⟩ := hv
      split at hv
      · cases hv
      · simp only [Option.some.injEq, Prod.mk.injEq] at hv; omega
    · rfl

/-! ### The canonical form -/

theorem memWf_iff (m : List (Nat × α)) :
    memWf d m = true ↔ m.Pairwise (fun e e' => e.1 < e'.1) ∧ ∀ e ∈ m, e.2 ≠ d e.1 := by
  simp [memWf]

@[simp] theorem memWf_nil : memWf d [] = true := by simp [memWf_iff]

omit [DecidableEq α] in
theorem mem_memInsert {a : Nat} {v : α} {m : List (Nat × α)} {e : Nat × α} (h : e ∈ memInsert a v m) :
    e = (a, v) ∨ e ∈ m := by
  induction m with
  | nil => simpa [memInsert] using h
  | cons e' m ih =>
    obtain ⟨b, w⟩ := e'
    simp only [memInsert] at h
    split at h
    · simpa using h
    · split at h
      · rcases List.mem_cons.mp h with h | h
        · exact .inl h
        · exact .inr (List.mem_cons_of_mem _ h)
      · rcases List.mem_cons.mp h with h | h
        · exact .inr (by simp [h])
        · exact (ih h).imp id (List.mem_cons_of_mem _)

omit [DecidableEq α] in
theorem memInsert_sorted {a : Nat} {v : α} {m : List (Nat × α)}
    (h : m.Pairwise fun e e' => e.1 < e'.1) : (memInsert a v m).Pairwise fun e e' => e.1 < e'.1 := by
  induction m with
  | nil => simp [memInsert]
  | cons e m ih =>
    obtain ⟨b, w⟩ := e
    obtain ⟨hb, hm⟩ := List.pairwise_cons.mp h
    simp only [memInsert]
    split
    · rename_i hab
      refine List.pairwise_cons.mpr ⟨fun e he => ?_, h⟩
      rcases List.mem_cons.mp he with rfl | he
      · exact hab
      · exact Nat.lt_trans hab (hb e he)
    · split
      · rename_i hab
        subst hab
        exact List.pairwise_cons.mpr ⟨hb, hm⟩
      · refine List.pairwise_cons.mpr ⟨fun e he => ?_, ih hm⟩
        rcases mem_memInsert he with rfl | he
        · show b < a; omega
        · exact hb e he

/-- A write keeps the canonical form. -/
theorem memWf_memWrite {a : Nat} {v : α} {m : List (Nat × α)} (h : memWf d m = true) :
    memWf d (memWrite d a v m) = true := by
  rw [memWf_iff] at h ⊢
  unfold memWrite
  split
  · exact ⟨h.1.filter _, fun e he => h.2 e (List.mem_filter.mp he).1⟩
  · rename_i hv
    refine ⟨memInsert_sorted h.1, fun e he => ?_⟩
    rcases mem_memInsert he with rfl | he
    · exact hv
    · exact h.2 e he

/-- A bulk write keeps the canonical form. -/
theorem memWf_memFill {n : Nat} {f : Nat → α} {m : List (Nat × α)} (h : memWf d m = true) :
    memWf d (memFill d n f m) = true := by
  rw [memWf_iff] at h ⊢
  have key : ∀ e ∈ (List.range n).filterMap (fun a => if f a = d a then none else some (a, f a)),
      e.1 < n ∧ e.2 ≠ d e.1 := by
    intro e he
    simp only [List.mem_filterMap, List.mem_range] at he
    obtain ⟨b, hb, he⟩ := he
    split at he
    · cases he
    · rename_i hf
      simp only [Option.some.injEq] at he
      subst he
      exact ⟨hb, hf⟩
  refine ⟨List.pairwise_append.mpr ⟨?_, h.1.filter _, ?_⟩, ?_⟩
  · rw [List.pairwise_filterMap]
    refine List.pairwise_lt_range.imp ?_
    intro a b hab e he e' he'
    split at he
    · cases he
    · split at he'
      · cases he'
      · simp only [Option.some.injEq] at he he'
        subst he; subst he'
        exact hab
  · intro e he e' he'
    have h1 := (key e he).1
    have h2 := (List.mem_filter.mp he').2
    simp only [decide_eq_true_eq] at h2
    omega
  · intro e he
    rcases List.mem_append.mp he with he | he
    · exact (key e he).2
    · exact h.2 e (List.mem_filter.mp he).1

/-! ### Bounds -/

omit [DecidableEq α] in
@[simp] theorem memBelow_nil (n : Nat) : memBelow n ([] : List (Nat × α)) = true := rfl

theorem memBelow_memWrite {n a : Nat} {v : α} {m : List (Nat × α)} (ha : a < n) (h : memBelow n m = true) :
    memBelow n (memWrite d a v m) = true := by
  simp only [memBelow, List.all_eq_true, decide_eq_true_eq] at h ⊢
  intro e he
  unfold memWrite at he
  split at he
  · exact h e (List.mem_filter.mp he).1
  · rcases mem_memInsert he with rfl | he
    · exact ha
    · exact h e he

theorem memBelow_memFill {n k : Nat} {f : Nat → α} {m : List (Nat × α)} (hk : k ≤ n)
    (h : memBelow n m = true) : memBelow n (memFill d k f m) = true := by
  simp only [memBelow, List.all_eq_true, decide_eq_true_eq] at h ⊢
  intro e he
  rcases List.mem_append.mp he with he | he
  · simp only [List.mem_filterMap, List.mem_range] at he
    obtain ⟨b, hb, he⟩ := he
    split at he
    · cases he
    · simp only [Option.some.injEq] at he
      subst he
      show b < n
      omega
  · exact h e (List.mem_filter.mp he).1

/-! ### Cells and bytes of a state -/

/-- What a cell holds after one cell of one buffer is written. -/
theorem cellRead_cellWrite (c : Config) (b b' : Buf) (a a' : Nat) (t : Sample) (s : State) :
    cellRead c b' (cellWrite c b a t s) a' =
      if b' = b ∧ a' = a then t else cellRead c b' s a' := by
  unfold cellRead
  simp only [cellWrite_epoch]
  unfold cellWrite
  rw [bufMem_setBufMem]
  by_cases h : b' = b
  · subst h; simp [memRead_memWrite]
  · simp [h]

/-- What a cell holds after a bulk write of one buffer. -/
theorem cellRead_cellFill (c : Config) (b b' : Buf) (n a' : Nat) (f : Nat → Sample) (s : State) :
    cellRead c b' (cellFill c b n f s) a' =
      if b' = b ∧ a' < n then f a' else cellRead c b' s a' := by
  unfold cellRead
  simp only [cellFill_epoch]
  unfold cellFill
  rw [bufMem_setBufMem]
  by_cases h : b' = b
  · subst h; simp [memRead_memFill]
  · simp [h]

/-- What a byte holds after one byte is written. -/
theorem byteRead_byteWrite (c : Config) (a a' : Nat) (v : Byte) (s : State) :
    byteRead c (byteWrite c a v s) a' = if a' = a then v else byteRead c s a' :=
  memRead_memWrite _ a a' v s.byt

/-- What a byte holds after a bulk write. -/
theorem byteRead_byteFill (c : Config) (n a' : Nat) (f : Nat → Byte) (s : State) :
    byteRead c (byteFill c n f s) a' = if a' < n then f a' else byteRead c s a' :=
  memRead_memFill _ n f s.byt a'

end Sys2Proof.Machine
end

