-- ==== Sys2Proof/Laws/Ops.lean ====
section
/-! SUPPORT. One lemma per shared operation, saying once what it can do: samples, the configuration check, the
prologue, the meanings as one function of the parameters, the sequencer, and the builder. -/

namespace Sys2Proof.Machine

/-! ### Samples -/

@[simp] theorem slot_sampleOf (f : Fin 4 → U16) (c : Fin 4) : slot (sampleOf f) c = f c := by
  fin_cases c <;> rfl

@[simp] theorem sampleOf_slot (t : Sample) : sampleOf (slot t) = t := rfl

/-- Two samples with the same slots are the same. -/
theorem sample_ext {t u : Sample} (h : ∀ c, slot t c = slot u c) : t = u := by
  rw [← sampleOf_slot t, ← sampleOf_slot u, funext h]

@[simp] theorem slot_sampleOfChannels (n : Nat) (f : Fin 4 → U16) (c : Fin 4) :
    slot (sampleOfChannels n f) c = if c.val < n then f c else 0 := by
  simp [sampleOfChannels]

@[simp] theorem slot_maskChannels (s : State) (t : Sample) (c : Fin 4) :
    slot (maskChannels s t) c = if c.val < s.chans.toNat then slot t c else 0 := by
  simp [maskChannels]

/-! ### Command bodies -/

@[simp] theorem finish_ok (s : State) : finish (.ok s) = .next s := rfl

@[simp] theorem finish_error (s : State) : finish (.error s) = .next s := rfl

/-- A command always answers a next state, faulting or not (70_reset_and_hazards.md R350). -/
theorem finish_next (r : Ran) : ∃ t, finish r = .next t ∧ (r = .ok t ∨ r = .error t) := by
  cases r with
  | ok s => exact ⟨s, rfl, .inl rfl⟩
  | error s => exact ⟨s, rfl, .inr rfl⟩

/-- The configuration check raises nothing exactly under a legal configuration (60_exceptions.md R302). -/
theorem checkCfg_eq_none_iff (c : Config) (s : State) : checkCfg c s = none ↔ ConfigLegal c s := by
  unfold checkCfg
  constructor
  · intro h
    split_ifs at h with h1 h2 h3 h4 h5 h6 h7 h8 h9
    refine ⟨h1, h2, h3, h4, ?_, ?_, by simpa [extent, bufW, bufH] using h7,
      by simpa [extent, bufW, bufH] using h8, by simpa [extent, bufW, bufH] using h9⟩
    · have hc : s.chans.toNat = 1 ∨ s.chans.toNat = 2 ∨ s.chans.toNat = 3 ∨ s.chans.toNat = 4 := by omega
      simp only [← BitVec.toNat_inj]; exact hc
    · have hd : s.depth.toNat = 8 ∨ s.depth.toNat = 16 := by omega
      simp only [← BitVec.toNat_inj]; exact hd
  · intro h
    have hc : 1 ≤ s.chans.toNat ∧ s.chans.toNat ≤ 4 := by
      rcases h.chans with h | h | h | h <;> simp [h]
    have hd : s.depth.toNat = 8 ∨ s.depth.toNat = 16 := by
      rcases h.depth with h | h <;> simp [h]
    have h7 := h.fitsSrc
    have h8 := h.fitsMid
    have h9 := h.fitsDst
    simp only [h.srcW, h.srcH, h.dstW, h.dstH, hc, hd, if_false, not_true_eq_false, and_self, extent, bufW,
      bufH, Nat.not_lt.mpr h7, Nat.not_lt.mpr h8, Nat.not_lt.mpr h9]

/-- Under a legal configuration the prologue runs the command's own rule. -/
theorem checked_of_legal {c : Config} {s : State} (h : ConfigLegal c s) (body : State → Ran) :
    checked c body s = body s := by
  simp [checked, (checkCfg_eq_none_iff c s).mpr h]

/-- What the prologue does: a fault of `CheckCfg`, or the command's own rule under a legal configuration. -/
theorem checked_cases (c : Config) (body : State → Ran) (s : State) :
    (∃ e i0 i1, checkCfg c s = some (e, i0, i1) ∧ checked c body s = .error (raise e i0 i1 s)) ∨
      (ConfigLegal c s ∧ checked c body s = body s) := by
  unfold checked
  cases h : checkCfg c s with
  | none => exact .inr ⟨(checkCfg_eq_none_iff c s).mp h, rfl⟩
  | some r => exact .inl ⟨r.1, r.2.1, r.2.2, rfl, rfl⟩

/-- The machine's own chip has `NUM_Q` (log 1). -/
@[simp] theorem chip_num : Config.chip.num = numQ := rfl

/-- The ROM of the machine's own chip is cut from free values (log 2). -/
theorem chip_krom : Config.chip.krom = romCut Config.free.krom := rfl

/-- One channel of an output pixel (44_separable_resampler.md R263, R264). -/
@[simp] theorem slot_convolve (c : Config) (chans : Nat) (fetch : Int → Sample) (l : List (Int × Rat)) (ch : Fin 4) :
    slot (convolve c chans fetch l) ch =
      if ch.val < chans then c.num.clampRound (mac c.num (fun n => slot (fetch n) ch) l) else 0 := by
  simp [convolve]

/-- The meanings are the model with the chip's parameters as its arguments (00_scope.md R6). -/
theorem exec_eq_runWith (i : Instr) (s : State) : exec i s = finish (runWith Config.chip i s) := by
  cases i <;> rfl

theorem step_eq_stepWith (s : State) : step s = stepWith Config.chip s := by
  unfold step stepWith
  congr 1
  funext i t
  exact exec_eq_runWith i t

/-! ### The sequencer -/

/-- A block with nothing to do waits and loses no state (60_exceptions.md R318). -/
theorem step_idle {s : State} (h : s.host = []) : step s = .next s := by
  simp [step, sequencer, h]

/-- A step takes the host's next action. -/
theorem step_cons {s : State} {a : HostAction} {rest : List HostAction} (h : s.host = a :: rest) :
    step s = hostAction Config.chip exec a { s with host := rest } := by
  simp [step, sequencer, h]

/-! ### Geometry -/

theorem extent_le_cap {c : Config} {s : State} (h : ConfigLegal c s) (b : Buf) : extent b s ≤ c.capBuf b := by
  cases b
  · exact h.fitsSrc
  · exact h.fitsMid
  · exact h.fitsDst

theorem toNat_pos {v : Field20} (h : v ≠ 0) : 0 < v.toNat := by
  rcases Nat.eq_zero_or_pos v.toNat with h0 | h0
  · exact absurd (BitVec.eq_of_toNat_eq (by simpa using h0)) h
  · exact h0

theorem bufW_pos {c : Config} {s : State} (h : ConfigLegal c s) (b : Buf) : 0 < bufW b s := by
  cases b
  · exact toNat_pos h.srcW
  · exact toNat_pos h.dstW
  · exact toNat_pos h.dstW

theorem bufH_pos {c : Config} {s : State} (h : ConfigLegal c s) (b : Buf) : 0 < bufH b s := by
  cases b
  · exact toNat_pos h.srcH
  · exact toNat_pos h.srcH
  · exact toNat_pos h.dstH

theorem wrap_lt (v : Int) {n : Nat} (h : 0 < n) : wrap v n < n := by
  have h1 := Int.emod_nonneg v (b := (n : Int)) (by omega)
  have h2 := Int.emod_lt_of_pos v (b := (n : Int)) (by omega)
  unfold wrap
  omega

theorem wrap_of_inRange {v : Int} {n : Nat} (h0 : 0 ≤ v) (h : v < n) : wrap v n = v.toNat := by
  unfold wrap
  rw [Int.emod_eq_of_lt h0 h]

theorem cellAddr_lt {x y : Int} {b : Buf} {s : State} (hw : 0 < bufW b s) (hh : 0 < bufH b s) :
    cellAddr b x y s < extent b s := by
  have h1 := wrap_lt x hw
  have h2 := wrap_lt y hh
  unfold cellAddr extent
  calc wrap y (bufH b s) * bufW b s + wrap x (bufW b s)
      < wrap y (bufH b s) * bufW b s + bufW b s := by omega
    _ = (wrap y (bufH b s) + 1) * bufW b s := by ring
    _ ≤ bufH b s * bufW b s := Nat.mul_le_mul_right _ h2
    _ = bufW b s * bufH b s := Nat.mul_comm _ _

end Sys2Proof.Machine
end

