-- ==== Sys2Proof/Laws/Builder.lean ====
section
/-! SUPPORT. What the builder can do, once: when a list, a row and a table come out, and what they are. -/

namespace Sys2Proof.Machine

/-- The mapped index of a candidate is inside the source axis (43_contribution_table.md R235). -/
def MapsInside (ns : Nat) (k : Int) : Prop := 0 ≤ bmap k ns ∧ bmap k ns < ns

theorem mem_candidates {l r k : Int} : k ∈ candidates l r ↔ l ≤ k ∧ k ≤ r := by
  simp only [candidates, List.mem_map, List.mem_range]
  constructor
  · rintro ⟨j, hj, rfl⟩
    omega
  · intro h
    exact ⟨(k - l).toNat, by omega, by omega⟩

theorem length_candidates (l r : Int) : (candidates l r).length = (r + 1 - l).toNat := by
  simp [candidates]

section
variable {F : Type} (N : Num F) (K : Kernel → F → F)

/-- The emission loop succeeds exactly when every candidate maps inside and the pairs fit, and then it lists every
candidate in order (R237, R238). -/
theorem emitPairs_ok_iff (ns cap i : Nat) (weight : Int → F) (ks : List Int) (count : Nat)
    (hc : count ≤ cap) (l : List (Int × F)) :
    emitPairs ns cap i weight ks count = .ok l ↔
      (∀ k ∈ ks, MapsInside ns k) ∧ count + ks.length ≤ cap ∧ l = ks.map fun k => (bmap k ns, weight k) := by
  induction ks generalizing count l with
  | nil => simp [emitPairs, hc, eq_comm]
  | cons k ks ih =>
    unfold emitPairs
    split
    · rename_i h
      constructor
      · intro h'; cases h'
      · rintro ⟨h', -⟩
        have := h' k (by simp)
        unfold MapsInside at this
        omega
    · rename_i h
      split
      · rename_i hcap
        constructor
        · intro h'; cases h'
        · rintro ⟨-, h', -⟩
          simp only [List.length_cons] at h'
          omega
      · rename_i hcap
        have hin : MapsInside ns k := by unfold MapsInside; omega
        have ih' := ih (count + 1) (by omega)
        cases hr : emitPairs ns cap i weight ks (count + 1) with
        | error e =>
          constructor
          · intro h'; cases h'
          · rintro ⟨h1, h2, -⟩
            have := (ih' (ks.map fun k => (bmap k ns, weight k))).mpr
              ⟨fun k' hk' => h1 k' (by simp [hk']), by simp only [List.length_cons] at h2; omega, rfl⟩
            rw [hr] at this
            cases this
        | ok l' =>
          obtain ⟨h1, h2, h3⟩ := (ih' l').mp hr
          simp only [Except.ok.injEq, List.length_cons, List.map_cons, List.mem_cons, forall_eq_or_imp]
          constructor
          · rintro rfl
            exact ⟨⟨hin, h1⟩, by omega, by rw [h3]⟩
          · rintro ⟨-, -, rfl⟩
            rw [h3]

/-- The list of destination index i as the algorithm defines it (R232, R233). -/
def rowOf (kid : Kernel) (nd ns i : Nat) : List (Int × F) :=
  (candidatesOf N kid nd ns i).map fun k =>
    (bmap k ns, weightOf N K kid nd ns i (totalOf N K kid nd ns i) k)

/-- Destination index i raises neither `E_NORM` nor `E_REFL`. -/
def RowGood (kid : Kernel) (nd ns i : Nat) : Prop :=
  (shrinks N nd ns && badTotal N (totalOf N K kid nd ns i)) = false ∧
    ∀ k ∈ candidatesOf N kid nd ns i, MapsInside ns k

theorem buildRow_ok_iff (kid : Kernel) (nd ns cap i count : Nat) (hc : count ≤ cap) (l : List (Int × F)) :
    buildRow N K kid nd ns cap i count = .ok l ↔
      RowGood N K kid nd ns i ∧ count + (candidatesOf N kid nd ns i).length ≤ cap ∧
        l = rowOf N K kid nd ns i := by
  unfold buildRow RowGood rowOf
  split
  · rename_i h
    simp [h]
  · rename_i h
    rw [emitPairs_ok_iff _ _ _ _ _ _ hc]
    simp only [Bool.not_eq_true] at h
    simp [h]

/-- The number of pairs of a list of rows. -/
def pairCount (kid : Kernel) (nd ns : Nat) (is : List Nat) : Nat :=
  (is.map fun i => (candidatesOf N kid nd ns i).length).sum

theorem buildRows_ok_iff (kid : Kernel) (nd ns cap : Nat) (is : List Nat) (count : Nat) (hc : count ≤ cap)
    (t : TableOf F) :
    buildRows N K kid nd ns cap is count = .ok t ↔
      (∀ i ∈ is, RowGood N K kid nd ns i) ∧ count + pairCount N kid nd ns is ≤ cap ∧
        t = is.map (rowOf N K kid nd ns) := by
  induction is generalizing count t with
  | nil => simp [buildRows, pairCount, hc, eq_comm]
  | cons i is ih =>
    unfold buildRows
    cases hr : buildRow N K kid nd ns cap i count with
    | error e =>
      constructor
      · intro h; cases h
      · rintro ⟨h1, h2, -⟩
        have := (buildRow_ok_iff N K kid nd ns cap i count hc (rowOf N K kid nd ns i)).mpr
          ⟨h1 i (by simp), by simp only [pairCount, List.map_cons, List.sum_cons] at h2; omega, rfl⟩
        rw [hr] at this
        cases this
    | ok l =>
      obtain ⟨g1, g2, rfl⟩ := (buildRow_ok_iff N K kid nd ns cap i count hc l).mp hr
      have hlen : (rowOf N K kid nd ns i).length = (candidatesOf N kid nd ns i).length := by simp [rowOf]
      simp only [hlen]
      have ih' := ih (count + (candidatesOf N kid nd ns i).length) g2
      cases hrs : buildRows N K kid nd ns cap is (count + (candidatesOf N kid nd ns i).length) with
      | error e =>
        constructor
        · intro h; cases h
        · rintro ⟨h1, h2, -⟩
          have := (ih' (is.map (rowOf N K kid nd ns))).mpr
            ⟨fun j hj => h1 j (by simp [hj]),
              by simp only [pairCount, List.map_cons, List.sum_cons] at h2 ⊢; omega, rfl⟩
          rw [hrs] at this
          cases this
      | ok t' =>
        obtain ⟨h1, h2, rfl⟩ := (ih' t').mp hrs
        simp only [Except.ok.injEq, List.mem_cons, forall_eq_or_imp, List.map_cons]
        constructor
        · rintro rfl
          exact ⟨⟨g1, h1⟩, by simp only [pairCount, List.map_cons, List.sum_cons] at h2 ⊢; omega, rfl⟩
        · rintro ⟨-, -, rfl⟩
          rfl

/-- A build succeeds exactly when no destination index raises `E_NORM` or `E_REFL` and the pairs fit; the table is
then the list of all rows (R238). -/
theorem buildTable_ok_iff (kid : Kernel) (nd ns cap : Nat) (t : TableOf F) :
    buildTable N K kid nd ns cap = .ok t ↔
      (∀ i < nd, RowGood N K kid nd ns i) ∧ pairCount N kid nd ns (List.range nd) ≤ cap ∧
        t = (List.range nd).map (rowOf N K kid nd ns) := by
  unfold buildTable
  rw [buildRows_ok_iff _ _ _ _ _ _ _ _ (Nat.zero_le cap)]
  simp

end

end Sys2Proof.Machine
end

