-- ==== Sys2Proof/Laws/Commands.lean ====
section
/-! SUPPORT. What the bodies of the commands can do, once each: the stop of a build, the outcomes of BUILD, PASS and
RESIZE, and the fit test of the byte conversions. -/

namespace Sys2Proof.Machine

section
variable {F : Type} (N : Num F) (K : Kernel → F → F)

/-- The first candidate that maps outside stops the emission, when the pairs before it fit (R235, R238). -/
theorem emitPairs_refl (ns cap i : Nat) (w : Int → F) (pre post : List Int) (k : Int) (count : Nat)
    (hp : ∀ k' ∈ pre, MapsInside ns k') (hc : count + pre.length ≤ cap) (hk : ¬ MapsInside ns k) :
    emitPairs ns cap i w (pre ++ k :: post) count = .error (.refl i k) := by
  induction pre generalizing count with
  | nil =>
    rw [List.nil_append]
    unfold emitPairs
    rw [if_pos (by unfold MapsInside at hk; omega)]
  | cons x pre ih =>
    rw [List.cons_append]
    unfold emitPairs
    have hx := hp x (by simp)
    unfold MapsInside at hx
    simp only [List.length_cons] at hc
    rw [if_neg (by omega), if_neg (by omega), ih (count + 1) (fun k' h => hp k' (by simp [h])) (by omega)]

/-- The candidate met when the table is full stops the emission (R238). -/
theorem emitPairs_alloc (ns cap i : Nat) (w : Int → F) (pre post : List Int) (k : Int) (count : Nat)
    (hp : ∀ k' ∈ pre, MapsInside ns k') (hc : count + pre.length = cap) (hk : MapsInside ns k) :
    emitPairs ns cap i w (pre ++ k :: post) count = .error (.alloc i) := by
  induction pre generalizing count with
  | nil =>
    rw [List.nil_append]
    unfold emitPairs
    unfold MapsInside at hk
    simp only [List.length_nil] at hc
    rw [if_neg (by omega), if_pos (by omega)]
  | cons x pre ih =>
    rw [List.cons_append]
    unfold emitPairs
    have hx := hp x (by simp)
    unfold MapsInside at hx
    simp only [List.length_cons] at hc
    rw [if_neg (by omega), if_neg (by omega), ih (count + 1) (fun k' h => hp k' (by simp [h])) (by omega)]

/-- A row that stops after good rows stops the build (R238). -/
theorem buildRows_error (kid : Kernel) (nd ns cap : Nat) (pre post : List Nat) (i count : Nat) (e : BuildStop)
    (hp : ∀ j ∈ pre, RowGood N K kid nd ns j) (hc : count + pairCount N kid nd ns pre ≤ cap)
    (he : buildRow N K kid nd ns cap i (count + pairCount N kid nd ns pre) = .error e) :
    buildRows N K kid nd ns cap (pre ++ i :: post) count = .error e := by
  induction pre generalizing count with
  | nil =>
    rw [List.nil_append]
    unfold buildRows
    simp only [pairCount, List.map_nil, List.sum_nil, Nat.add_zero] at he
    rw [he]
  | cons x pre ih =>
    rw [List.cons_append]
    unfold buildRows
    simp only [pairCount, List.map_cons, List.sum_cons] at hc he
    rw [(buildRow_ok_iff N K kid nd ns cap x count (by omega) _).mpr ⟨hp x (by simp), by omega, rfl⟩]
    have hl : (rowOf N K kid nd ns x).length = (candidatesOf N kid nd ns x).length := by simp [rowOf]
    simp only [hl]
    rw [ih (count + (candidatesOf N kid nd ns x).length) (fun j h => hp j (by simp [h]))
      (by unfold pairCount; omega) (by unfold pairCount; rw [Nat.add_assoc]; exact he)]

/-- Where an emission that stops at a reflection stopped. -/
theorem emitPairs_refl_inv {ns cap i : Nat} {w : Int → F} {ks : List Int} {count i' : Nat} {k : Int}
    (h : emitPairs ns cap i w ks count = .error (.refl i' k)) : i' = i ∧ k ∈ ks ∧ ¬ MapsInside ns k := by
  induction ks generalizing count with
  | nil => simp [emitPairs] at h
  | cons x ks ih =>
    unfold emitPairs at h
    split_ifs at h with h1 h2
    · cases h
      exact ⟨rfl, by simp, by unfold MapsInside; omega⟩
    · cases h
    · split at h
      · rename_i e he
        cases h
        obtain ⟨q1, q2, q3⟩ := ih he
        exact ⟨q1, by simp [q2], q3⟩
      · cases h

end

/-- The indices below i, then i, then the rest: the order in which a build meets its rows. -/
theorem range_split {i n : Nat} (h : i < n) : ∃ post, List.range n = List.range i ++ i :: post := by
  refine ⟨(List.range (n - i - 1)).map (fun x => i + 1 + x), ?_⟩
  have e : n = (i + 1) + (n - i - 1) := by omega
  conv_lhs => rw [e, List.range_add, List.range_succ]
  simp

/-- BUILD: a stop raises its fault after the flags were written, a table completes (R238). -/
theorem buildBody_cases (c : Config) (a : Axis) (s : State) :
    (∃ e, axisTable c a s = .error e ∧
        buildBody c a s = .error (raiseStop e (startTable a (axisShrinks c a s) s))) ∨
      (∃ t, axisTable c a s = .ok t ∧
        buildBody c a s = .ok (completeTable t (startTable a (axisShrinks c a s) s))) := by
  unfold buildBody
  cases axisTable c a s with
  | error e => exact .inl ⟨e, rfl, rfl⟩
  | ok t => exact .inr ⟨t, rfl, rfl⟩

/-- PASS without its table (R265). -/
theorem passBody_seq (c : Config) (w : Word) {a : Axis} {s : State} (h : s.tabv = false ∨ s.tabax ≠ a) :
    passBody c w a s = .error (raise .eSeq w.toNat 0 s) := by
  unfold passBody
  rw [if_pos h]

/-- PASS with its table (R265). -/
theorem passBody_ok (c : Config) (w : Word) {a : Axis} {s : State} (hv : s.tabv = true) (ha : s.tabax = a) :
    passBody c w a s = .ok (dropTable (passAxis c a s)) := by
  unfold passBody
  rw [if_neg (by simp [hv, ha])]

/-- A completed table is valid for its axis, so the pass that follows its build inside RESIZE never raises (R266). -/
theorem passBody_of_build {c : Config} {w : Word} {a : Axis} {s t : State} (h : buildBody c a s = .ok t) :
    passBody c w a t = .ok (dropTable (passAxis c a t)) := by
  rcases buildBody_cases c a s with ⟨e, -, h'⟩ | ⟨T, -, h'⟩
  · rw [h] at h'; cases h'
  · rw [h] at h'
    cases h'
    exact passBody_ok c w rfl rfl

/-- RESIZE: the X build stops, or the Y build stops after a complete X pass, or all four sub-steps complete (R266). -/
theorem resizeBody_cases (c : Config) (s : State) :
    (∃ e, buildBody c .x s = .error e ∧ resizeBody c s = .error e) ∨
      (∃ s1 e, buildBody c .x s = .ok s1 ∧ buildBody c .y (dropTable (passX c s1)) = .error e ∧
        resizeBody c s = .error e) ∨
      (∃ s1 s3, buildBody c .x s = .ok s1 ∧ buildBody c .y (dropTable (passX c s1)) = .ok s3 ∧
        resizeBody c s = .ok (dropTable (passY c s3))) := by
  unfold resizeBody
  cases h1 : buildBody c .x s with
  | error e => exact .inl ⟨e, rfl, rfl⟩
  | ok s1 =>
    right
    simp only [passBody_of_build h1]
    cases h3 : buildBody c .y (dropTable (passAxis c .x s1)) with
    | error e => exact .inl ⟨s1, e, rfl, h3, rfl⟩
    | ok s3 => exact .inr ⟨s1, s3, rfl, h3, passBody_of_build h3⟩

/-- UNPACK and PACK fault before any access when the stream does not fit (41_byte_conversion.md R190). -/
theorem ifStreamFits_cases (c : Config) (b : Buf) (s t : State) :
    (c.capByt < streamBytes b s ∧ ifStreamFits c b s t = .error (raise .eAlloc 4 0 s)) ∨
      (streamBytes b s ≤ c.capByt ∧ ifStreamFits c b s t = .ok t) := by
  unfold ifStreamFits
  split
  · rename_i h; exact .inl ⟨h, rfl⟩
  · rename_i h; exact .inr ⟨Nat.not_lt.mp h, rfl⟩

end Sys2Proof.Machine
end

