-- ==== Sys2Proof/Laws/Decode.lean ====
section
/-! SUPPORT. Inversions of the operand tables and of the per-format decoders: what a field value selects, and when a
format refuses (30_encoding.md R126 to R130). -/

namespace Sys2Proof

theorem regOf_regNum (r : Reg) : regOf (regNum r) = some r := by cases r <;> rfl

theorem regNum_of_regOf {n : Nat} {r : Reg} (h : regOf n = some r) : regNum r = n := by
  unfold regOf at h
  split at h <;> simp_all <;> subst h <;> rfl

theorem regOf_eq_none_iff {n : Nat} : regOf n = none ↔ 13 ≤ n := by
  unfold regOf
  split <;> simp_all
  omega

theorem regNum_lt (r : Reg) : regNum r < 13 := by cases r <;> decide

theorem isSample_iff (r : Reg) : r.isSample = true ↔ 9 ≤ regNum r := by cases r <;> decide

theorem bufNum_of_bufOf {n : Nat} {b : Buf} (h : bufOf n = some b) : bufNum b = n := by
  unfold bufOf at h
  split at h <;> simp_all <;> subst h <;> rfl

theorem bufOf_eq_none_iff {n : Nat} : bufOf n = none ↔ 3 ≤ n := by
  unfold bufOf
  split <;> simp_all
  omega

theorem bufNum_lt (b : Buf) : bufNum b < 3 := by cases b <;> decide

theorem axisNum_of_axisOf {n : Nat} {a : Axis} (h : axisOf n = some a) : axisNum a = n := by
  unfold axisOf at h
  split at h <;> simp_all <;> subst h <;> rfl

theorem axisOf_eq_none_iff {n : Nat} : axisOf n = none ↔ 2 ≤ n := by
  unfold axisOf
  split <;> simp_all
  omega

theorem axisNum_lt (a : Axis) : axisNum a < 2 := by cases a <;> decide

/-- What a format-B word that decodes holds. -/
theorem decodeBuf_ok {mk : Buf → Instr} {w : Word} {i : Instr} (h : decodeBuf mk w = .ok i) :
    ∃ b, i = mk b ∧ bits w 23 0 = 0 ∧ bits w 25 24 = bufNum b := by
  unfold decodeBuf at h
  split_ifs at h with h1
  split at h
  · cases h
  · rename_i b hb
    cases h
    exact ⟨b, rfl, by simpa using h1, (bufNum_of_bufOf hb).symm⟩

/-- What a format-A word that decodes holds. -/
theorem decodeAxis_ok {mk : Axis → Instr} {w : Word} {i : Instr} (h : decodeAxis mk w = .ok i) :
    ∃ a, i = mk a ∧ bits w 23 0 = 0 ∧ bits w 25 24 = axisNum a := by
  unfold decodeAxis at h
  split_ifs at h with h1
  split at h
  · cases h
  · rename_i a ha
    cases h
    exact ⟨a, rfl, by simpa using h1, (axisNum_of_axisOf ha).symm⟩

/-- When format S refuses. -/
theorem decodeSet_error_iff (w : Word) :
    (∃ e, decodeSet w = .error e) ↔
      bits w 21 20 ≠ 0 ∨ 13 ≤ bits w 25 22 ∨
        (9 ≤ bits w 25 22 ∧ bits w 25 22 ≤ 12 ∧ bits w 19 16 ≠ 0) := by
  unfold decodeSet
  split_ifs with h1
  · simp [h1]
  · cases hr : regOf (bits w 25 22) with
    | none => simp [regOf_eq_none_iff.mp hr]
    | some r =>
      have e := regNum_of_regOf hr
      have l := regNum_lt r
      rw [← e]
      simp only [isSample_iff]
      split_ifs with h2
      · simp only [Except.error.injEq, exists_eq', true_iff]; omega
      · simp only [exists_false, false_iff]; omega

/-- When format B refuses. -/
theorem decodeBuf_error_iff (mk : Buf → Instr) (w : Word) :
    (∃ e, decodeBuf mk w = .error e) ↔ bits w 23 0 ≠ 0 ∨ 3 ≤ bits w 25 24 := by
  unfold decodeBuf
  split_ifs with h1
  · simp [h1]
  · cases hr : bufOf (bits w 25 24) with
    | none => simp [bufOf_eq_none_iff.mp hr]
    | some b =>
      have e := bufNum_of_bufOf hr
      have l := bufNum_lt b
      rw [← e]
      simp only [reduceCtorEq, exists_false, false_iff]; omega

/-- When format A refuses. -/
theorem decodeAxis_error_iff (mk : Axis → Instr) (w : Word) :
    (∃ e, decodeAxis mk w = .error e) ↔ bits w 23 0 ≠ 0 ∨ 2 ≤ bits w 25 24 := by
  unfold decodeAxis
  split_ifs with h1
  · simp [h1]
  · cases hr : axisOf (bits w 25 24) with
    | none => simp [axisOf_eq_none_iff.mp hr]
    | some a =>
      have e := axisNum_of_axisOf hr
      have l := axisNum_lt a
      rw [← e]
      simp only [reduceCtorEq, exists_false, false_iff]; omega

end Sys2Proof
end

