-- ==== Sys2Proof/Laws/PerInstr.lean ====
section
/-! SUPPORT. Facts about every instruction as syntax, one lemma per constructor. -/

/-- A word has the opcode and, in the low bits, the zeros that spec/opcode_table.json fixes for a format-B or
format-A row. -/
abbrev Sys2Proof.Laws.TableMatch.OperandRow (w : Sys2Proof.Word) (opc : Nat) : Prop :=
  Sys2Proof.bits w 31 26 = opc ∧ Sys2Proof.bits w 23 0 = 0

/-- `Sys2Proof.Laws.TableMatch`: the word of an instruction holds the value of every fixed field of its own row of
spec/opcode_table.json, and so lies in no other row. -/
def Sys2Proof.Laws.TableMatch.Statement (i : Sys2Proof.Instr) : Prop :=
  match i with
  | .set _ _ => Sys2Proof.bits (Sys2Proof.encode i) 31 26 = 1 ∧ Sys2Proof.bits (Sys2Proof.encode i) 21 20 = 0
  | .clr _ => Sys2Proof.Laws.TableMatch.OperandRow (Sys2Proof.encode i) 2
  | .get _ => Sys2Proof.Laws.TableMatch.OperandRow (Sys2Proof.encode i) 3
  | .put _ => Sys2Proof.Laws.TableMatch.OperandRow (Sys2Proof.encode i) 4
  | .unpack _ => Sys2Proof.Laws.TableMatch.OperandRow (Sys2Proof.encode i) 5
  | .pack _ => Sys2Proof.Laws.TableMatch.OperandRow (Sys2Proof.encode i) 6
  | .build _ => Sys2Proof.Laws.TableMatch.OperandRow (Sys2Proof.encode i) 7
  | .pass _ => Sys2Proof.Laws.TableMatch.OperandRow (Sys2Proof.encode i) 8
  | .resize => Sys2Proof.bits (Sys2Proof.encode i) 31 0 = 603979776

theorem Sys2Proof.Laws.TableMatch.set (reg : Sys2Proof.Reg) (imm : Sys2Proof.Field20) :
    Sys2Proof.Laws.TableMatch.Statement (.set reg imm) := by
  have h1 : Sys2Proof.regNum reg < 13 := by cases reg <;> decide
  have h2 : imm.toNat < 2 ^ 20 := imm.isLt
  simp only [Sys2Proof.Laws.TableMatch.Statement, Sys2Proof.bits, Sys2Proof.encode, BitVec.toNat_ofNat]
  omega

theorem Sys2Proof.Laws.TableMatch.clr (buf : Sys2Proof.Buf) : Sys2Proof.Laws.TableMatch.Statement (.clr buf) := by
  cases buf <;> exact ⟨rfl, rfl⟩

theorem Sys2Proof.Laws.TableMatch.get (buf : Sys2Proof.Buf) : Sys2Proof.Laws.TableMatch.Statement (.get buf) := by
  cases buf <;> exact ⟨rfl, rfl⟩

theorem Sys2Proof.Laws.TableMatch.put (buf : Sys2Proof.Buf) : Sys2Proof.Laws.TableMatch.Statement (.put buf) := by
  cases buf <;> exact ⟨rfl, rfl⟩

theorem Sys2Proof.Laws.TableMatch.unpack (buf : Sys2Proof.Buf) :
    Sys2Proof.Laws.TableMatch.Statement (.unpack buf) := by
  cases buf <;> exact ⟨rfl, rfl⟩

theorem Sys2Proof.Laws.TableMatch.pack (buf : Sys2Proof.Buf) : Sys2Proof.Laws.TableMatch.Statement (.pack buf) := by
  cases buf <;> exact ⟨rfl, rfl⟩

theorem Sys2Proof.Laws.TableMatch.build (axis : Sys2Proof.Axis) :
    Sys2Proof.Laws.TableMatch.Statement (.build axis) := by
  cases axis <;> exact ⟨rfl, rfl⟩

theorem Sys2Proof.Laws.TableMatch.pass (axis : Sys2Proof.Axis) :
    Sys2Proof.Laws.TableMatch.Statement (.pass axis) := by
  cases axis <;> exact ⟨rfl, rfl⟩

theorem Sys2Proof.Laws.TableMatch.resize : Sys2Proof.Laws.TableMatch.Statement .resize := rfl
end

