-- ==== Sys2Proof/Laws/Rational.lean ====
section
/-! SUPPORT. The builder and the accumulator in `NUM_Q`, written over Mathlib's rational numbers: what each operation
of the record `numQ` comes to (00_scope.md R9; 43_contribution_table.md R231 to R233). -/

namespace Sys2Proof.Machine

theorem ceil_eq (q : Rat) : q.ceil = ⌈q⌉ := by
  apply eq_of_forall_ge_iff
  intro z
  rw [Int.ceil_le, Rat.ceil_le_iff]

theorem floor_eq (q : Rat) : q.floor = ⌊q⌋ := rfl

theorem absQ_eq (q : Rat) : absQ q = |q| := by
  unfold absQ
  split
  · rename_i h; rw [abs_of_neg h]
  · rw [abs_of_nonneg (by linarith)]

theorem scaleOf_numQ (nd ns : Nat) : scaleOf numQ nd ns = (nd : Rat) / (ns : Rat) := by
  simp [scaleOf, numQ]

theorem shrinks_numQ (nd ns : Nat) : shrinks numQ nd ns = decide ((nd : Rat) / (ns : Rat) < 1) := by
  unfold shrinks
  rw [scaleOf_numQ]
  simp [numQ]

theorem esupOf_numQ (kid : Kernel) (nd ns : Nat) :
    esupOf numQ kid nd ns =
      if (nd : Rat) / (ns : Rat) < 1 then ksup kid / ((nd : Rat) / (ns : Rat)) else ksup kid := by
  unfold esupOf
  rw [shrinks_numQ, scaleOf_numQ]
  simp [numQ]

theorem centerOf_numQ (nd ns i : Nat) : centerOf numQ nd ns i = (i : Rat) / ((nd : Rat) / (ns : Rat)) := by
  unfold centerOf
  rw [scaleOf_numQ]
  simp [numQ]

theorem candidatesOf_numQ (kid : Kernel) (nd ns i : Nat) :
    candidatesOf numQ kid nd ns i =
      candidates ⌈centerOf numQ nd ns i - esupOf numQ kid nd ns⌉ ⌊centerOf numQ nd ns i + esupOf numQ kid nd ns⌋ := by
  unfold candidatesOf
  rw [← ceil_eq, ← floor_eq]
  rfl

theorem kernelArg_numQ (nd ns i : Nat) (k : Int) :
    kernelArg numQ nd ns i k =
      if (nd : Rat) / (ns : Rat) < 1 then (centerOf numQ nd ns i - (k : Rat)) * ((nd : Rat) / (ns : Rat))
      else centerOf numQ nd ns i - (k : Rat) := by
  unfold kernelArg
  simp only [shrinks_numQ, scaleOf_numQ, decide_eq_true_eq]
  rfl

/-- A running sum is the sum of the list. -/
theorem foldl_add_eq_sum {α : Type} (f : α → Rat) (l : List α) (a : Rat) :
    l.foldl (fun t x => t + f x) a = a + (l.map f).sum := by
  induction l generalizing a with
  | nil => simp
  | cons x l ih => simp [ih, add_assoc]

theorem totalOf_numQ (K : Kernel → Rat → Rat) (kid : Kernel) (nd ns i : Nat) :
    totalOf numQ K kid nd ns i =
      ((candidatesOf numQ kid nd ns i).map fun k => K kid (kernelArg numQ nd ns i k)).sum := by
  have h := foldl_add_eq_sum (fun k => K kid (kernelArg numQ nd ns i k)) (candidatesOf numQ kid nd ns i) 0
  rw [zero_add] at h
  exact h

theorem badTotal_numQ (t : Rat) : badTotal numQ t = decide (t = 0) := by
  simp [badTotal, numQ]

/-- The accumulator is the weighted sum (44_separable_resampler.md R260). -/
theorem mac_numQ (fetch : Int → U16) (l : List (Int × Rat)) :
    mac numQ fetch l = (l.map fun p => p.2 * ((fetch p.1).toNat : Rat)).sum := by
  have h := foldl_add_eq_sum (fun p : Int × Rat => p.2 * ((fetch p.1).toNat : Rat)) l 0
  simpa [mac, numQ] using h

end Sys2Proof.Machine
end

