-- ==== Sys2Proof/Machine/Assembler.lean ====
section
/-! DEFINITION. The assembler notation of the spec (30_encoding.md R133) and its pseudo-instructions (R134): one line
of text to the commands it stands for. The machine does not use it: the host presents words. -/

namespace Sys2Proof.Machine

/-- A blank character. -/
def isBlank (ch : Char) : Bool := ch = ' ' || ch = '\t'

/-- A piece of text without the blanks around it. -/
def trimBlanks (l : List Char) : List Char := ((l.dropWhile isBlank).reverse.dropWhile isBlank).reverse

/-- The pieces of a text between commas. -/
def splitCommas : List Char → List (List Char)
  | [] => [[]]
  | ch :: l =>
    if ch = ',' then [] :: splitCommas l
    else match splitCommas l with
      | [] => [[ch]]
      | p :: ps => (ch :: p) :: ps

/-- The value of a hexadecimal digit. -/
def hexDigit (ch : Char) : Option Nat :=
  if '0' ≤ ch ∧ ch ≤ '9' then some (ch.toNat - 48)
  else if 'a' ≤ ch ∧ ch ≤ 'f' then some (ch.toNat - 87)
  else if 'A' ≤ ch ∧ ch ≤ 'F' then some (ch.toNat - 55)
  else none

/-- The value of the digits `l` in a base, after `acc`. -/
def parseDigits (base : Nat) : List Char → Nat → Option Nat
  | [], acc => some acc
  | ch :: l, acc =>
    match hexDigit ch with
    | some d => if d < base then parseDigits base l (acc * base + d) else none
    | none => none

/-- A decimal or `0x` hexadecimal number. -/
def parseNat (l : List Char) : Option Nat :=
  match l with
  | '0' :: 'x' :: d :: ds => parseDigits 16 (d :: ds) 0
  | d :: ds => parseDigits 10 (d :: ds) 0
  | [] => none

/-- An integer, with a minus sign if negative. -/
def parseInt (l : List Char) : Option Int :=
  match l with
  | '-' :: ds => (parseNat ds).map fun n => -(n : Int)
  | ds => (parseNat ds).map fun n => (n : Int)

/-- A register name (R126, R133). -/
def parseReg (l : List Char) : Option Reg :=
  match String.ofList l with
  | "SRC_W" => some .srcW
  | "SRC_H" => some .srcH
  | "DST_W" => some .dstW
  | "DST_H" => some .dstH
  | "CHANS" => some .chans
  | "DEPTH" => some .depth
  | "KSEL" => some .ksel
  | "X" => some .x
  | "Y" => some .y
  | "SMP0" => some .smp0
  | "SMP1" => some .smp1
  | "SMP2" => some .smp2
  | "SMP3" => some .smp3
  | _ => none

/-- A buffer name. -/
def parseBuf (l : List Char) : Option Buf :=
  match String.ofList l with
  | "SRC" => some .src
  | "MID" => some .mid
  | "DST" => some .dst
  | _ => none

/-- An axis name. -/
def parseAxis (l : List Char) : Option Axis :=
  match String.ofList l with
  | "X" => some .x
  | "Y" => some .y
  | _ => none

/-- The selector of a kernel name of the assembler; any other name is 0xFFFFF, which selects Box (R134). -/
def kernelSelector (l : List Char) : Field20 :=
  match String.ofList l with
  | "BOX" => 0
  | "BILINEAR" => 1
  | "BSPLINE" => 2
  | "BICUBIC" => 3
  | "LANCZOS3" => 4
  | "MITCHELL" => 5
  | _ => 0xFFFFF

/-- The range of an immediate operand of `SET` (R133). -/
def immInRange (r : Reg) (v : Int) : Bool :=
  if r = .x ∨ r = .y then decide (-524288 ≤ v ∧ v ≤ 524287)
  else if r.isSample then decide (0 ≤ v ∧ v ≤ 65535)
  else decide (0 ≤ v ∧ v ≤ 1048575)

/-- `SET r, v`, encoded as the low 20 bits of `v`. -/
def asmSet (r : Reg) (v : Int) : Option Instr :=
  if immInRange r v then some (.set r (BitVec.ofInt 20 v)) else none

/-- The commands `SET r, v` for a list of registers and as many operands. -/
def asmSets : List Reg → List (List Char) → Option (List Instr)
  | [], [] => some []
  | r :: rs, o :: os =>
    match parseInt o with
    | none => none
    | some v =>
      match asmSet r v, asmSets rs os with
      | some i, some is => some (i :: is)
      | _, _ => none
  | _, _ => none

/-- One operand, if there is exactly one. -/
def oneOperand {α : Type} (f : List Char → Option α) (os : List (List Char)) : Option α :=
  match os with
  | [o] => f o
  | _ => none

/-- The commands of a mnemonic or pseudo-instruction and its operands (R133, R134). -/
def asmOp (m : List Char) (os : List (List Char)) : Option (List Instr) :=
  match String.ofList m with
  | "SET" =>
    match os with
    | [r, v] => (parseReg r).bind fun r => asmSets [r] [v]
    | _ => none
  | "CLR" => (oneOperand parseBuf os).map fun b => [.clr b]
  | "GET" => (oneOperand parseBuf os).map fun b => [.get b]
  | "PUT" => (oneOperand parseBuf os).map fun b => [.put b]
  | "UNPACK" => (oneOperand parseBuf os).map fun b => [.unpack b]
  | "PACK" => (oneOperand parseBuf os).map fun b => [.pack b]
  | "BUILD" => (oneOperand parseAxis os).map fun a => [.build a]
  | "PASS" => (oneOperand parseAxis os).map fun a => [.pass a]
  | "RESIZE" => if os = [] then some [.resize] else none
  | "GEOM" => asmSets [.srcW, .srcH, .dstW, .dstH] os
  | "FORMAT" => asmSets [.chans, .depth] os
  | "KERNEL" => oneOperand (fun n => some [.set .ksel (kernelSelector n)]) os
  | "AT" => asmSets [.x, .y] os
  | "SAMPLE" => asmSets [.smp0, .smp1, .smp2, .smp3] os
  | "RESIZE4" => if os = [] then some [.build .x, .pass .x, .build .y, .pass .y] else none
  | _ => none

/-- One line of assembler text: a comment from `;` on is dropped, an empty line is no command (R133). -/
def assembleLine (line : String) : Option (List Instr) :=
  let text := trimBlanks (line.toList.takeWhile fun ch => ch ≠ ';')
  if text = [] then some []
  else
    let m := text.takeWhile fun ch => !isBlank ch
    let rest := trimBlanks (text.drop m.length)
    asmOp m (if rest = [] then [] else (splitCommas rest).map trimBlanks)

end Sys2Proof.Machine
end

