-- ==== Sys2Proof/Tests/Slice0.lean ====
section
/-! SUPPORT. The model's own tests. Expected values come from spec/95_test_vectors.md (vectors V, S, programs P) and
the worked examples of the command rules; each test names its source. -/

namespace Sys2Proof.Tests
open Sys2Proof.Machine Sys2Proof.Spec

/-! ### A chip with known parameters: the capacities and the ROM of 95_test_vectors.md -/

/-- Capacities 64, 64, 64, 256, 256, `NUM_Q` and `KROM_DEFAULT`; unwritten memory holds recognisable values. -/
def chip0 : Config where
  capSrcLess1 := 63
  capMidLess1 := 63
  capDstLess1 := 63
  capTabLess1 := 255
  capBytLess1 := 255
  num := numQ
  krom := kromDefault
  powerOnCell _ _ _ := ⟨0xDEAD, 0xDEAD, 0xDEAD, 0xDEAD⟩
  powerOnByte _ _ := 0xDD
  staleTable _ _ := []

/-- A configured block: geometry, channels, depth, kernel selector. -/
def configured (sw sh dw dh ch dp k : Field20) : State :=
  { State.reset with srcW := sw, srcH := sh, dstW := dw, dstH := dh, chans := ch, depth := dp, ksel := k }

/-- A one-channel sample. -/
def gray (v : U16) : Sample := ⟨v, 0, 0, 0⟩

/-- Cells at addresses 0, 1, …, one channel. -/
def cells (l : List U16) : List (Nat × Sample) := (List.range l.length).zip (l.map gray)

/-- Bytes at addresses 0, 1, …. -/
def bytes (l : List Byte) : List Host.Cell := (List.range l.length).zip l

/-- The command ran to its end in a state with the property. -/
def ranTo (r : Ran) (p : State → Bool) : Bool := match r with | .ok t => p t | .error _ => false

/-- The command raised a fault, leaving a state with the property. -/
def faultedTo (r : Ran) (p : State → Bool) : Bool := match r with | .ok _ => false | .error t => t.fault && p t

/-- The step answers a next state with the property. -/
def nextTo (o : Host.Outcome State Fault Refusal) (p : State → Bool) : Bool :=
  match o with
  | .next t => p t
  | _ => false

/-- The fault record: `ERR`, `INFO0`, `INFO1`. -/
def record (t : State) : BitVec 3 × Word × Word := (t.err, t.info0, t.info1)

/-- The table of a kernel of `KROM_DEFAULT` in `NUM_Q`, capacity 256. -/
def tableQ (k : Kernel) (ns nd : Nat) : Except BuildStop Table := buildTable numQ kromDefault k nd ns 256

/-- The table of a successful build. -/
def okTable (r : Except BuildStop Table) : Table := match r with | .ok t => t | .error _ => []

/-! ### Well-formedness: the one check refuses -/

/-- 30_encoding.md R130 (d): 0x10000 is no value of `SMP0`. -/
theorem test_wf_refuses_wide_sample : (Instr.set .smp0 0x10000).wf = false := by decide
theorem test_wf_accepts_full_sample : (Instr.set .smp3 0xFFFF).wf = true := by decide

/-! ### Decode: words of vector V1 and 30_encoding.md R133, written out from R121 to R129 -/

theorem test_decode_set_x : decode 0x05CFFFFF = .ok (.set .x 0xFFFFF) := by decide
theorem test_decode_set_smp0 : decode 0b00000110010000001111111111111111 = .ok (.set .smp0 0xFFFF) := by decide
theorem test_decode_set_ksel : decode 0x058FFFFF = .ok (.set .ksel 0xFFFFF) := by decide
theorem test_decode_clr : decode 0b00001010000000000000000000000000 = .ok (.clr .dst) := by decide
theorem test_decode_get : decode 0b00001101000000000000000000000000 = .ok (.get .mid) := by decide
theorem test_decode_put : decode 0b00010000000000000000000000000000 = .ok (.put .src) := by decide
theorem test_decode_unpack : decode 0b00010101000000000000000000000000 = .ok (.unpack .mid) := by decide
theorem test_decode_pack : decode 0b00011010000000000000000000000000 = .ok (.pack .dst) := by decide
theorem test_decode_build : decode 0b00011101000000000000000000000000 = .ok (.build .y) := by decide
theorem test_decode_pass : decode 0b00100000000000000000000000000000 = .ok (.pass .x) := by decide
theorem test_decode_resize : decode 0b00100100000000000000000000000000 = .ok .resize := by decide

/-- The illegal words of vector V1, one per case of R130 and the two named words. -/
theorem test_decode_illegal :
    decode 0x00000000 = .error .opcode ∧ decode 0x28000000 = .error .opcode ∧
      decode 0xFFFFFFFF = .error .opcode ∧ decode 0x04100000 = .error .mbz2 ∧
      decode 0x07400000 = .error .reg ∧ decode 0x06410000 = .error .sampleImm ∧
      decode 0x08000001 = .error .mbz24 ∧ decode 0x0B000000 = .error .buf ∧
      decode 0x1E000000 = .error .axis ∧ decode 0x24000001 = .error .mbz26 ∧
      decode 0x25000000 = .error .mbz26 := by decide

theorem test_decodeTableWord : decodeTableWord 32 0x1A000000 = some (.pack .dst) := by decide

/-- Programs P3 and P1 in the notation of R133 and R134. -/
theorem test_assembler :
    (assembleLine "SET Y, -1 ; wraps").map (List.map encode) = some [0x060FFFFF#32] ∧
      (assembleLine "GEOM 4,4, 2, 0x2").map (List.map encode) =
        some [0x04000004#32, 0x04400004#32, 0x04800002#32, 0x04C00002#32] ∧
      (assembleLine "KERNEL gauss").map (List.map encode) = some [0x058FFFFF#32] ∧
      assembleLine "SET SMP0, 65536" = none := by decide +kernel

/-! ### SET, CLR, GET, PUT -/

/-- V2 (a): from reset, `SET SRC_W, 4`; nothing else changes. -/
theorem test_set_srcW : setBody .srcW 4 State.reset = { State.reset with srcW := 4 } := by decide +kernel

/-- V2 (d): `SET DEPTH` with an unchanged value clears `TABV`, `SET X` does not. -/
theorem test_set_tabv :
    (setBody .depth 8 { configured 4 4 2 2 1 8 0 with tabv := true }).tabv = false ∧
      (setBody .x 3 { configured 4 4 2 2 1 8 0 with tabv := true }).tabv = true := by decide +kernel

/-- R162: `CLR SRC` on 2 x 2 zeroes cells 0 to 3 and leaves cell 4. -/
theorem test_clr :
    ranTo (runWith chip0 (.clr .src) { configured 2 2 1 1 1 8 0 with src := [(3, gray 7), (4, gray 9)] })
      (fun t => (List.range 6).map (fun a => (cellRead chip0 .src t a).c0) =
        [0, 0, 0, 0, 9, 0xDEAD]) = true := by decide +kernel

/-- V4 (a) and (c): wrapped coordinates, and channels above `CHANS` read as 0. -/
theorem test_get :
    ranTo (runWith chip0 (.get .src) { configured 4 1 1 1 1 8 0 with
      src := cells [10, 20, 30, 40], x := 0xFFFFF, y := 5 }) (fun t => t.smp = ⟨40, 0, 0, 0⟩) = true ∧
    ranTo (runWith chip0 (.get .src) { configured 1 1 1 1 2 8 0 with src := [(0, ⟨1, 2, 3, 4⟩)] })
      (fun t => t.smp = ⟨1, 2, 0, 0⟩ && t.src = [(0, ⟨1, 2, 3, 4⟩)]) = true := by decide +kernel

/-- V4 (d): `GET MID` uses the width `DST_W` and the height `SRC_H`. -/
theorem test_get_mid :
    ranTo (runWith chip0 (.get .mid) { configured 9 4 2 1 1 8 0 with
      mid := [(7, gray 77)], x := 1, y := 3 }) (fun t => t.smp = gray 77) = true := by decide +kernel

/-- P3 at pc 12: cell 5 becomes (1000, 2000, 0, 0), slot 2 gets 0 and not 3000. -/
theorem test_put :
    ranTo (runWith chip0 (.put .src) { configured 3 2 1 1 2 8 0 with
      x := 0xFFFFF, y := 3, smp := ⟨1000, 2000, 3000, 0⟩ })
      (fun t => t.src = [(5, ⟨1000, 2000, 0, 0⟩)]) = true := by decide +kernel

/-- V3. -/
theorem test_wrap :
    [wrap 0 4, wrap 3 4, wrap 4 4, wrap (-1) 4, wrap (-4) 4, wrap (-9) 4, wrap 11 4, wrap 5 1,
      wrap (-524288) 3, wrap 524287 3] = [0, 3, 0, 3, 0, 3, 3, 0, 1, 1] := by decide

/-! ### UNPACK, PACK -/

/-- V7 (b): two channels at 16 bits, big-endian. -/
theorem test_unpack :
    ranTo (runWith chip0 (.unpack .src) { configured 2 2 1 1 2 16 0 with
      byt := bytes [0x10, 0x00, 0xFF, 0xFF, 0x30, 0x00, 0x80, 0x00, 0x00, 0x64, 0x00, 0x00, 0x00, 0xC8, 0xFF, 0xFE] })
      (fun t => t.src = [(0, ⟨4096, 65535, 0, 0⟩), (1, ⟨12288, 32768, 0, 0⟩), (2, ⟨100, 0, 0, 0⟩),
        (3, ⟨200, 65534, 0, 0⟩)]) = true := by decide +kernel

/-- V7 (c): the same two samples at 16 and at 8 bits. -/
theorem test_pack :
    ranTo (runWith chip0 (.pack .dst) { configured 1 1 2 1 1 16 0 with dst := cells [10923, 32768] })
      (fun t => t.byt = bytes [0x2A, 0xAB, 0x80, 0x00]) = true ∧
    ranTo (runWith chip0 (.pack .dst) { configured 1 1 2 1 1 8 0 with dst := cells [10923, 32768] })
      (fun t => t.byt = bytes [43, 128]) = true := by decide +kernel

/-- V7 (e): 512 bytes do not fit 256; no byte is written. -/
theorem test_pack_alloc :
    faultedTo (runWith chip0 (.pack .src) (configured 8 8 2 2 4 16 0))
      (fun t => record t = (4, 4, 0) && t.byt = []) = true := by decide +kernel

/-- V6. -/
theorem test_conversions :
    [dec8 1, dec8 43, dec8 128, dec8 254, dec8 255, dec16 0x12 0x34, dec16 0xFF 0] =
        [257, 11051, 32896, 65278, 65535, 4660, 65280] ∧
      [enc8 128, enc8 129, enc8 385, enc8 386, enc8 10923, enc8 32767, enc8 65406, enc8 65407] =
        [0, 1, 1, 2, 43, 127, 254, 255] ∧
      enc16 10923 = (0x2A, 0xAB) := by decide

/-! ### Kernels and BUILD -/

/-- V5 and G2 to G4, G6: the values of the default ROM, cut to the contract of R212. -/
theorem test_kernels :
    kDecode 6 = .box ∧ kDecode 5 = .mitchell ∧
      romCut kromDefault .box (1 / 2) = 1 ∧ romCut kromDefault .box (-1 / 2) = 0 ∧
      romCut kromDefault .bspline (1 / 2) = 23 / 48 ∧ romCut kromDefault .bicubic (-3 / 2) = -1 / 16 ∧
      romCut kromDefault .mitchell (3 / 2) = -5 / 144 ∧ romCut kromDefault .mitchell 0 = 8 / 9 ∧
      romCut kromDefault .lanczos3 2 = 0 := by decide +kernel

/-- V8. -/
theorem test_bmap :
    [bmap (-9) 10, bmap (-1) 10, bmap 9 10, bmap 10 10, bmap 11 10, bmap 19 10, bmap (-10) 10, bmap 20 10] =
      [9, 1, 9, 9, 8, 0, 10, -1] := by decide

/-- V9 (a), P5: the Box table 4 to 2 through an unknown selector, and the flags. -/
theorem test_build :
    ranTo (runWith chip0 (.build .x) (configured 4 1 2 1 1 16 7))
      (fun t => t.ctab = [[(1, 1 / 2), (0, 1 / 2), (1, 0)], [(1, 1 / 2), (2, 1 / 2), (3, 0)]] &&
        statusWord t = 0xA) = true := by decide +kernel

/-- V9 (d), (g), (j): Bilinear 3 to 2 and 2 to 3, and the weights of Mitchell 6 to 3. -/
theorem test_build_tables :
    tableQ .bilinear 3 2 = .ok [[(1, 1 / 5), (0, 3 / 5), (1, 1 / 5)], [(0, 0), (1, 1 / 2), (2, 1 / 2), (2, 0)]] ∧
      tableQ .bilinear 2 3 =
        .ok [[(1, 0), (0, 1), (1, 0)], [(0, 1 / 3), (1, 2 / 3)], [(1, 2 / 3), (1, 1 / 3)]] ∧
      (okTable (tableQ .mitchell 6 3)).getD 2 [] =
        [(0, 0), (1, -5 / 288), (2, 1 / 36), (3, 77 / 288), (4, 4 / 9), (5, 77 / 288), (5, 1 / 36), (4, -5 / 288),
          (3, 0)] := by decide +kernel

/-- V19: reflection overflow (Lanczos-3 on 3 to 6, B-spline 2 to 1) and a table that does not fit. -/
theorem test_build_faults :
    faultedTo (runWith chip0 (.build .x) (configured 3 3 6 6 1 8 4))
      (fun t => record t = (5, 0, 0xFFFFFFFD) && statusWord t = 0x1) = true ∧
    faultedTo (runWith chip0 .resize (configured 2 2 1 1 1 8 2))
      (fun t => record t = (5, 0, 0xFFFFFFFC) && statusWord t = 0x9 && t.mid = []) = true ∧
    faultedTo (runWith { chip0 with capTabLess1 := 3 } (.build .x) (configured 4 4 2 2 1 8 0))
      (fun t => record t = (4, 3, 1) && statusWord t = 0x9) = true := by decide +kernel

/-- V19: `E_NORM` through a ROM whose total cancels at destination index 0. -/
theorem test_build_norm :
    faultedTo (runWith { chip0 with krom := fun _ t => if t = 0 then 1 else -1 / 2 } (.build .x)
      (configured 4 4 2 2 1 8 0)) (fun t => record t = (6, 0, 0) && statusWord t = 0x9) = true := by decide +kernel

/-! ### PASS, RESIZE -/

/-- V16. -/
theorem test_clampRound :
    [clampRoundQ (-500), clampRoundQ (-4 / 10), clampRoundQ (49 / 100), clampRoundQ (1 / 2), clampRoundQ (21845 / 2),
      clampRoundQ (6553449 / 100), clampRoundQ (131069 / 2), clampRoundQ (655354 / 10), clampRoundQ 70000] =
      [0, 0, 0, 1, 10923, 65534, 65535, 65535, 65535] := by decide +kernel

/-- P5 at pc 8 and pc 9: the X pass, and a second one without its table. -/
theorem test_pass :
    ranTo (runWith chip0 (.pass .x) { configured 4 1 2 1 1 16 7 with
      src := cells [0, 21845, 43690, 65535], tabv := true, tabmode := .shrink,
      ctab := [[(1, 1 / 2), (0, 1 / 2), (1, 0)], [(1, 1 / 2), (2, 1 / 2), (3, 0)]] })
      (fun t => t.mid = cells [10923, 32768] && statusWord t = 0x8) = true ∧
    faultedTo (runWith chip0 (.pass .x) (configured 4 1 2 1 1 16 7))
      (fun t => record t = (7, 0x20000000, 0)) = true := by decide +kernel

/-- P1 at pc 8: the source's end-to-end scenario. -/
theorem test_resize :
    ranTo (runWith chip0 .resize { configured 4 4 2 2 1 8 0 with
      src := cells [0, 21845, 43690, 65535, 0, 21845, 43690, 65535, 0, 21845, 43690, 65535, 0, 21845, 43690, 65535] })
      (fun t => t.mid = cells [10923, 32768, 10923, 32768, 10923, 32768, 10923, 32768] &&
        t.dst = cells [10923, 32768, 10923, 32768] && statusWord t = 0xC) = true := by decide +kernel

/-- P1 on a chip with `NUM_F64` and the default ROM held under names: the same final buffer. -/
theorem test_resize_f64 :
    ranTo (runWith { chip0 with num := numF64Held, krom := fun k t => nameF64 (ofRatF64 (kromDefault k (valueF64 (readF64 t)))) }
      .resize { configured 4 4 2 2 1 8 0 with
      src := cells [0, 21845, 43690, 65535, 0, 21845, 43690, 65535, 0, 21845, 43690, 65535, 0, 21845, 43690, 65535] })
      (fun t => t.dst = cells [10923, 32768, 10923, 32768]) = true := by decide +kernel

/-- V14: the drift of Lanczos-3 at a half-pixel center, and V15: the clamp of Bicubic, one X pass of 4 to 8. -/
theorem test_pass_kernels :
    clampRoundQ (2 * (kLanczos3 (1 / 2) + kLanczos3 (3 / 2) + kLanczos3 (5 / 2)) * 65535) = 65161 ∧
    ranTo (runWith chip0 (.pass .x) { configured 4 1 8 1 1 8 3 with
      src := cells [0, 65535, 65535, 0], tabv := true, ctab := okTable (tableQ .bicubic 4 8) })
      (fun t => t.mid = cells [0, 28672, 65535, 65535, 65535, 32768, 0, 0]) = true := by decide +kernel

/-! ### The prologue, the host, and NUM_F64 -/

/-- V19: geometry outranks format; `MID` is checked although CLR SRC does not use it. -/
theorem test_checkCfg :
    faultedTo (runWith chip0 (.clr .src) (configured 0 4 2 2 5 8 0)) (fun t => record t = (2, 0, 0)) = true ∧
    faultedTo (runWith chip0 (.clr .src) (configured 4 4 2 2 3 12 0)) (fun t => record t = (3, 5, 12)) = true ∧
    faultedTo (runWith chip0 (.clr .src) (configured 2 8 9 2 1 8 0)) (fun t => record t = (4, 1, 0)) = true := by
  decide +kernel

/-- The step presents the word: V1, the all-ones word from reset. -/
theorem test_step_illegal :
    nextTo (step (State.reset.withFetchWord 32 0xFFFFFFFF))
      (fun t => t = { State.reset with err := 1, info0 := 0xFFFFFFFF, fault := true }) = true := by decide

/-- V21: `RESIZE` as the first command. -/
theorem test_step_reset_resize :
    nextTo (step (State.reset.withFetchWord 32 0x24000000))
      (fun t => t = { State.reset with err := 2, fault := true }) = true := by decide

/-- IEEE 754: 0.1 + 0.2 is the binary64 value above 0.3, and a third has the mantissa 0x15555555555555. -/
theorem test_f64 :
    addF64 (ofRatF64 (1 / 10)) (ofRatF64 (2 / 10)) = .fin false (5404319552844596 / 18014398509481984) ∧
      divF64 (ofRatF64 1) (ofRatF64 3) = .fin false (6004799503160661 / 18014398509481984) ∧
      clampRoundF64 .nan = 0 ∧ clampRoundF64 (.inf false) = 65535 := by decide +kernel

/-! ### Witnesses: for every obligation with hypotheses, a concrete state and operands that meet them together

On the machine's own chip, of which only R6 is known, the witness is the 1 x 1 configuration with Box at 1:1; where a
clause needs a larger image, a fault or known capacities, the witness is a state of `chip0`. -/

/-- The configuration 1 x 1 to 1 x 1, one channel, 8 bits, Box. -/
def tiny : State := configured 1 1 1 1 1 8 0

theorem one_le_capBuf (c : Config) (b : Buf) : 1 ≤ c.capBuf b := by cases b <;> exact Nat.le_add_left 1 _

/-- Legal on every chip. -/
theorem witness_tiny_legal (c : Config) : ConfigLegal c tiny :=
  ⟨by decide, by decide, by decide, by decide, .inl rfl, .inl rfl, one_le_capBuf c .src, one_le_capBuf c .mid,
    one_le_capBuf c .dst⟩

theorem tiny_cands : cands .box 1 1 0 = [0] := by decide +kernel

/-- Buildable on every chip: one candidate, which maps to itself. -/
theorem witness_tiny_buildable (c : Config) (a : Axis) : Buildable c a tiny := by
  have hd : axisDst a tiny = 1 := by cases a <;> rfl
  have hs : axisSrc a tiny = 1 := by cases a <;> rfl
  have hk : kDecode tiny.ksel = .box := by rfl
  refine ⟨fun i hi => ?_, ?_⟩
  · rw [hd] at hi
    obtain rfl : i = 0 := by omega
    rw [hd, hs, hk]
    refine ⟨fun h => absurd h (by decide +kernel), fun k h => ?_⟩
    rw [tiny_cands, List.mem_singleton] at h
    subst h
    exact ⟨by decide, by decide⟩
  · rw [hd, hs, hk]
    have : pairsBelow .box 1 1 1 = 1 := by decide +kernel
    rw [this]
    exact Nat.le_add_left 1 _

/-- On `chip0`, a legality check by computation. -/
theorem legal_of_check {s : State} (h : checkCfg chip0 s = none) : ConfigLegal chip0 s := (checkCfg_eq_none_iff _ s).mp h

/-- A run that ends well, by computation. -/
theorem ran_of {r : Ran} (h : ranTo r (fun _ => true) = true) : ∃ t, r = .ok t := by
  cases r with
  | ok t => exact ⟨t, rfl⟩
  | error t => cases h

/-- A run that raises, by computation. -/
theorem raised_of {r : Ran} (h : ranTo r (fun _ => true) = false) : ∃ t, r = .error t := by
  cases r with
  | ok t => cases h
  | error t => exact ⟨t, rfl⟩

/-- The illegal words at the edges of the cases of R130, and legal words beside them. -/
theorem witness_illegal :
    (IllegalWord 0x03FFFFFF ∧ IllegalWord 0x28000000 ∧ IllegalWord 0x04100000 ∧ IllegalWord 0x07400000 ∧
      IllegalWord 0x06410000 ∧ IllegalWord 0x07010000 ∧ IllegalWord 0x08000001 ∧ IllegalWord 0x20800000 ∧
      IllegalWord 0x0B000000 ∧ IllegalWord 0x1B000000 ∧ IllegalWord 0x1E000000 ∧ IllegalWord 0x24000001) ∧
    ¬ IllegalWord 0x0640FFFF ∧ ¬ IllegalWord 0x060FFFFF ∧ ¬ IllegalWord 0x0A000000 ∧ ¬ IllegalWord 0x21000000 ∧
      ¬ IllegalWord 0x24000000 := by
  refine ⟨⟨?_, ?_, ?_, ?_, ?_, ?_, ?_, ?_, ?_, ?_, ?_, ?_⟩, ?_, ?_, ?_, ?_, ?_⟩ <;> (simp only [IllegalWord]; decide)

/-- StepRunsTheDecodedCommand, FaultStateDiscards, HostWritesReachOneUnit (a cell at address 0, and the byte and cell at
the last address of a memory), ResetLeavesTheResetState, EmptyQueueWaits: a queue. -/
theorem witness_host :
    ({ State.reset with host := [.command 0x24000000] }).fault = false ∧ decode 0x24000000 = .ok .resize ∧
      ({ State.reset with host := [.writeByte 0 0], fault := true, err := 1 }).fault = true ∧
      HostAction.writeByte 0 0 ≠ .reset ∧ (∀ b, 0 < Config.chip.capBuf b) ∧ 0 < Config.chip.capByt ∧
      ({ State.reset with host := [.reset], fault := true, err := 1 }).host = .reset :: [] ∧ State.reset.host = [] :=
  ⟨rfl, by decide, rfl, by decide, one_le_capBuf _, Nat.le_add_left 1 _, rfl, rfl⟩

/-- HostWritesReachOneUnit: the queue of each clause, and the last address of a buffer and of `BYT`. -/
theorem witness_host_writes (b : Buf) :
    let a := Config.chip.capBuf b - 1
    let n := Config.chip.capByt - 1
    (({ State.reset with host := [.writeCell b a ⟨1, 2, 3, 4⟩] }).host = .writeCell b a ⟨1, 2, 3, 4⟩ :: [] ∧
      State.reset.fault = false ∧ a < Config.chip.capBuf b) ∧
    ({ State.reset with host := [.writeByte n 7] }).host = .writeByte n 7 :: [] ∧ n < Config.chip.capByt := by
  have h1 := one_le_capBuf Config.chip b
  have h2 : 1 ≤ Config.chip.capByt := Nat.le_add_left 1 _
  exact ⟨⟨rfl, rfl, by omega⟩, rfl, by omega⟩

/-- HostReadsShowTheState: the last existing address and the first absent one, and a valid table. -/
theorem witness_host_reads :
    63 < chip0.capBuf .src ∧ chip0.capBuf .src ≤ 64 ∧ 255 < chip0.capByt ∧ chip0.capByt ≤ 256 ∧
      ({ tiny with tabv := true }).tabv = true := by decide

/-- HeldNumberSystemAgrees: the naming of `NUM_F64` reads back infinities and a negative zero. -/
theorem witness_held : readF64 (nameF64 (.inf true)) = .inf true ∧ readF64 (nameF64 (.fin true 0)) = .fin true 0 ∧
    readF64 (nameF64 (.fin true (1 / 3))) = .fin true (1 / 3) := by decide +kernel

/-- HeldNumberSystemAgrees: rational names of the rationals that read back. -/
theorem witness_named : ∀ x : Rat, (fun y : Rat => y - 1) ((fun y : Rat => y + 1) x) = x := fun x => by simp

/-- UnconfiguredBlockRaisesGeom and the other statements over every command but SET. -/
theorem witness_notSet : NotSet .resize ∧ NotSet (.clr .src) := ⟨fun _ _ h => (by cases h), fun _ _ h => (by cases h)⟩

/-- ConfigurationCheckOrder: each clause, the last one with every buffer exactly at its capacity. -/
theorem witness_check :
    checkCfg chip0 (configured 0 0 0 0 0 0 0) = some (.eGeom, 0, 0) ∧
      checkCfg chip0 (configured 1 0 0 0 0 0 0) = some (.eGeom, 1, 0) ∧
      checkCfg chip0 (configured 1 1 0 0 0 0 0) = some (.eGeom, 2, 0) ∧
      checkCfg chip0 (configured 1 1 1 0 0 0 0) = some (.eGeom, 3, 0) ∧
      checkCfg chip0 (configured 1 1 1 1 5 0 0) = some (.eFmt, 4, 5) ∧
      checkCfg chip0 (configured 1 1 1 1 4 9 0) = some (.eFmt, 5, 9) ∧
      checkCfg chip0 (configured 65 1 65 1 1 8 0) = some (.eAlloc, 0, 0) ∧
      checkCfg chip0 (configured 64 1 65 1 1 8 0) = some (.eAlloc, 1, 0) ∧
      checkCfg chip0 (configured 64 1 64 2 1 8 0) = some (.eAlloc, 2, 0) ∧
      checkCfg chip0 (configured 64 1 64 1 4 16 0) = none := by decide +kernel

/-- AccessorLaws: an extent of 3 x 2, a sample with zeros above `CHANS`, coordinates in different columns and rows. -/
theorem witness_accessor :
    let s := configured 3 2 1 1 2 8 0
    0 < bufW .src s ∧ 0 < bufH .src s ∧ (∀ ch : Fin 4, s.chans.toNat ≤ ch.val → slot ⟨7, 8, 0, 0⟩ ch = 0) ∧
      wrap 3 (bufW .src s) ≠ wrap (-1) (bufW .src s) ∧ wrap 2 (bufH .src s) ≠ wrap (-1) (bufH .src s) := by decide

/-- UnpackDecodesTheStream, PackEncodesTheBuffer: a stream of exactly `CAP_BYT` bytes, and one byte pair too long. -/
theorem witness_stream :
    (ConfigLegal Config.chip tiny ∧ bytesOf .src tiny ≤ Config.chip.capByt) ∧
      (ConfigLegal chip0 (configured 8 8 1 1 4 8 0) ∧ bytesOf .src (configured 8 8 1 1 4 8 0) = chip0.capByt) ∧
      (ConfigLegal chip0 (configured 8 8 1 1 2 16 0) ∧ bytesOf .src (configured 8 8 1 1 2 16 0) = chip0.capByt) ∧
      (ConfigLegal chip0 (configured 43 1 1 1 3 16 0) ∧ chip0.capByt < bytesOf .src (configured 43 1 1 1 3 16 0)) :=
  ⟨⟨witness_tiny_legal _, Nat.le_add_left 1 _⟩, ⟨legal_of_check (by decide +kernel), by decide +kernel⟩,
    ⟨legal_of_check (by decide +kernel), by decide +kernel⟩,
    legal_of_check (by decide +kernel), by decide +kernel⟩

/-- PackAndUnpackRoundTrip: both orders, at 16 and at 8 bits. -/
theorem witness_roundTrip :
    let s16 := { configured 1 1 1 1 1 16 0 with src := [(0, gray 128)] }
    let s8 := { tiny with src := [(0, gray 385)], byt := [(0, 7)] }
    (ConfigLegal chip0 s16 ∧ bytesOf .src s16 ≤ chip0.capByt ∧
      ∃ t u, runWith chip0 (.pack .src) s16 = .ok t ∧ runWith chip0 (.unpack .src) t = .ok u) ∧
    (ConfigLegal chip0 s8 ∧ bytesOf .src s8 ≤ chip0.capByt ∧
      (∃ t u, runWith chip0 (.pack .src) s8 = .ok t ∧ runWith chip0 (.unpack .src) t = .ok u) ∧
      ∃ t u, runWith chip0 (.unpack .src) s8 = .ok t ∧ runWith chip0 (.pack .src) t = .ok u) :=
  ⟨⟨legal_of_check (by decide +kernel), by decide +kernel, _, _, rfl, rfl⟩,
    legal_of_check (by decide +kernel), by decide +kernel, ⟨_, _, rfl, rfl⟩, _, _, rfl, rfl⟩

/-- SelectorDecode: the first and the last unmatched selector, and one that selects the kernel of `tiny`;
RomMeetsItsContract: an argument beyond the support, and one inside it, not on its edge. -/
theorem witness_rom :
    (6 ≤ (6 : Field20).toNat ∧ 6 ≤ (0xFFFFF : Field20).toNat) ∧ kDecode 7 = kDecode tiny.ksel ∧
      ksup .box < 3 / 4 ∧ |(1 / 4 : Rat)| ≠ ksup .box := by
  refine ⟨by decide, rfl, by norm_num [ksup], by norm_num [ksup, abs_of_pos]⟩

/-- DefaultRomIsLegal: a ROM that meets the contract, 1 on every closed support. -/
theorem witness_contract : RomContract fun k t => if |t| ≤ ksup k then 1 else 0 := by
  intro k t
  have hk : (0 : Rat) ≤ ksup k := by cases k <;> norm_num [ksup]
  refine ⟨fun h => if_neg ?_, fun _ => by simp [abs_neg], ?_⟩
  · rw [not_le]
    rcases h with h | h
    · exact lt_of_lt_of_le (by linarith) (neg_le_abs t)
    · exact lt_of_lt_of_le h (le_abs_self t)
  · simp only [abs_zero, hk, if_true]
    split_ifs <;> norm_num

/-- The state of vector V9 (a): 4 x 1 to 2 x 1, the shrink path. -/
def shrinking : State := configured 4 1 2 1 1 16 7

/-- A chip whose kernels sum to 0 at destination index 0. -/
def cancelling : Config := { chip0 with krom := fun _ t => if t = 0 then 1 else -1 / 2 }

theorem shrinking_cands : cands .box 2 4 0 = [-1, 0, 1] ∧ cands .box 2 4 1 = [1, 2, 3] := by decide +kernel

/-- A table that `chip0` builds is buildable by the rules. -/
theorem witness_shrink_buildable : ConfigLegal chip0 shrinking ∧ Buildable chip0 .x shrinking := by
  refine ⟨legal_of_check (by decide +kernel), fun i hi => ?_, by decide +kernel⟩
  have hi : i < 2 := hi
  show RowOk (chip0.krom) .box 2 4 i
  interval_cases i
  · refine ⟨fun _ => by decide +kernel, ?_⟩
    rw [shrinking_cands.1]
    unfold Inside
    decide
  · refine ⟨fun _ => by decide +kernel, ?_⟩
    rw [shrinking_cands.2]
    unfold Inside
    decide

/-- BuildRaisesTheFirstFaultMet: a zero total at index 0; a reflection at the first candidate (Bilinear 1 to 1); the
fourth pair of a table with room for three. -/
theorem witness_build_faults :
    (ConfigLegal cancelling (configured 4 4 2 2 1 8 0) ∧ 0 < axisDst .x (configured 4 4 2 2 1 8 0) ∧
      pairsBelow .box 2 4 0 ≤ cancelling.capTab ∧ ¬ TotalOk (cancelling.krom) .box 2 4 0) ∧
    (ConfigLegal chip0 (configured 1 1 1 1 1 8 1) ∧ TotalOk (chip0.krom) .bilinear 1 1 0 ∧
      cands .bilinear 1 1 0 = [] ++ (-1) :: [0, 1] ∧ ¬ Inside 1 (-1)) ∧
    (ConfigLegal { chip0 with capTabLess1 := 2 } shrinking ∧ pairsBelow .box 2 4 1 = 3 ∧
      TotalOk (Config.krom { chip0 with capTabLess1 := 2 }) .box 2 4 1 ∧ cands .box 2 4 1 = [] ++ 1 :: [2, 3] ∧
      Inside 4 1) := by
  refine ⟨⟨(checkCfg_eq_none_iff _ _).mp (by decide +kernel), by decide, by decide +kernel, ?_⟩,
    ⟨legal_of_check (by decide +kernel), fun h => absurd h (by decide +kernel), by decide +kernel, ?_⟩,
    (checkCfg_eq_none_iff _ _).mp (by decide +kernel), by decide +kernel, fun _ => by decide +kernel,
    by decide +kernel, ?_⟩
  · intro h
    exact h (by decide +kernel) (by decide +kernel)
  · rintro ⟨-, h⟩
    exact absurd h (by decide)
  · exact ⟨by decide, by decide⟩

/-- ReflectionOverflowExactly: Bilinear 1 to 1 reaches the source axis, Box 4 to 2 on a small table faults without
reaching it. -/
theorem witness_reflection :
    ((1 : Nat) : Rat) ≤ esup .bilinear 1 1 ∧ TotalOk (chip0.krom) .bilinear 1 1 0 ∧
      esup .box 2 4 < ((4 : Nat) : Rat) ∧
      ∃ t, runWith { chip0 with capTabLess1 := 2 } (.build .x) shrinking = .error t :=
  ⟨by decide +kernel, fun h => absurd h (by decide +kernel), by decide +kernel,
    raised_of (by decide +kernel)⟩

/-- BuiltTableIsWellShaped, ShrinkWeightsSumToOne, IdentityTableHoldsThePeak: tables that come out, on both paths, and
in `NUM_F64`. -/
theorem witness_tables :
    (∃ T, buildTable numQ kromDefault .bilinear 2 3 256 = .ok T) ∧
      (∃ T, buildTable numQ kromDefault .bilinear 3 2 256 = .ok T) ∧
      (∃ T, buildTable numQ kromDefault .box 1 1 1 = .ok T) ∧
      ∃ T, buildTable numF64 (fun _ _ => .fin false 1) .box 1 2 3 = .ok T := by
  have key : ∀ {F : Type} {r : Except BuildStop (TableOf F)}, r.toBool = true → ∃ T, r = .ok T := by
    intro F r h
    cases r with
    | ok T => exact ⟨T, rfl⟩
    | error e => cases h
  exact ⟨key (by decide +kernel), key (by decide +kernel), key (by decide +kernel), key (by decide +kernel)⟩

/-- PassWithoutItsTableRaisesSeq: no table, and a table of the other axis. -/
theorem witness_pass_seq :
    ConfigLegal Config.chip { tiny with tabv := true } ∧ (tiny.tabv = false ∨ tiny.tabax ≠ .x) ∧
      (({ tiny with tabv := true }).tabv = false ∨ tiny.tabax ≠ .y) :=
  ⟨⟨by decide, by decide, by decide, by decide, .inl rfl, .inl rfl, one_le_capBuf _ .src, one_le_capBuf _ .mid,
      one_le_capBuf _ .dst⟩, .inl rfl, .inr (by decide)⟩

/-- `shrinking` after `BUILD X`, over the row of vector V9 (a). -/
def shrinkBuilt : State :=
  { shrinking with
    src := cells [0, 21845, 43690, 65535], tabv := true, tabmode := .shrink
    ctab := [[(1, 1 / 2), (0, 1 / 2), (1, 0)], [(1, 1 / 2), (2, 1 / 2), (3, 0)]] }

/-- `shrinkBuilt` turned by a quarter: 1 x 4 to 1 x 2 after `BUILD Y`, over a column of `MID`. -/
def shrinkBuiltY : State :=
  { configured 1 4 1 2 1 16 7 with
    mid := cells [0, 21845, 43690, 65535], tabv := true, tabax := .y, tabmode := .shrink
    ctab := [[(1, 1 / 2), (0, 1 / 2), (1, 0)], [(1, 1 / 2), (2, 1 / 2), (3, 0)]] }

/-- PassXConvolvesRows, PassYConvolvesColumns, PassNeverWraps, EveryStepKeepsSoundness: on each axis a sound, valid table
under a legal configuration, with a pair of it. -/
theorem witness_tableSound :
    (TableSound chip0 shrinkBuilt ∧ ConfigLegal chip0 shrinkBuilt ∧ shrinkBuilt.tabv = true ∧ shrinkBuilt.tabax = .x ∧
      [(1, 1 / 2), (2, 1 / 2), (3, 0)] ∈ shrinkBuilt.ctab) ∧
    (TableSound chip0 shrinkBuiltY ∧ ConfigLegal chip0 shrinkBuiltY ∧ shrinkBuiltY.tabv = true ∧
      shrinkBuiltY.tabax = .y ∧ [(1, 1 / 2), (2, 1 / 2), (3, 0)] ∈ shrinkBuiltY.ctab) ∧
    ((3 : Int), (0 : Rat)) ∈ [(1, 1 / 2), (2, 1 / 2), (3, 0)] ∧ chip0.num = numQ :=
  ⟨⟨fun _ => ⟨legal_of_check (by decide +kernel), by decide +kernel, by decide +kernel⟩,
      legal_of_check (by decide +kernel), rfl, rfl, by decide +kernel⟩,
    ⟨fun _ => ⟨legal_of_check (by decide +kernel), by decide +kernel, by decide +kernel⟩,
      legal_of_check (by decide +kernel), rfl, rfl, by decide +kernel⟩, by decide +kernel, rfl⟩

/-- Box at 1:1 on one coordinate: the single pair (0, K(0, 0)), for every ROM and capacity (43_contribution_table.md
R239 (c)). -/
theorem box_table (K : Kernel → Rat → Rat) (cap : Nat) (h : 1 ≤ cap) :
    buildTable numQ K .box 1 1 cap = .ok [[(0, K .box 0)]] := by
  have hc : candidatesOf numQ .box 1 1 0 = [0] := by decide +kernel
  have hs : shrinks numQ 1 1 = false := by decide +kernel
  have ha : kernelArg numQ 1 1 0 0 = 0 := by decide +kernel
  rw [buildTable_ok_iff]
  refine ⟨fun i hi => ?_, by simpa [pairCount, hc] using h, by simp [rowOf, hc, weightOf, hs, ha, bmap]⟩
  obtain rfl : i = 0 := by omega
  simp [RowGood, hs, hc, MapsInside, bmap]

/-- PassXConvolvesRows, PassYConvolvesColumns on the machine's own chip: the 1 x 1 configuration with the sound table
of Box at 1:1. -/
theorem witness_pass (a : Axis) :
    let s := { tiny with tabv := true, tabax := a, ctab := [[(0, Config.chip.krom .box 0)]] }
    ConfigLegal Config.chip s ∧ s.tabv = true ∧ s.tabax = a ∧ TableSound Config.chip s := by
  have one : (1 : Field20) ≠ 0 := by decide
  have legal : ConfigLegal Config.chip
      { tiny with tabv := true, tabax := a, ctab := [[(0, Config.chip.krom .box 0)]] } :=
    ⟨one, one, one, one, .inl rfl, .inl rfl, one_le_capBuf _ .src, one_le_capBuf _ .mid, one_le_capBuf _ .dst⟩
  have key : buildTable numQ Config.chip.krom .box 1 1 Config.chip.capTab = .ok [[(0, Config.chip.krom .box 0)]] :=
    box_table _ _ (Nat.le_add_left 1 _)
  have hs : shrinks numQ 1 1 = false := by decide +kernel
  refine ⟨legal, rfl, rfl, fun _ => ⟨legal, ?_, ?_⟩⟩
  · cases a <;> exact key
  · cases a
    · show TabMode.enlarge = if shrinks numQ 1 1 = true then .shrink else .enlarge
      rw [hs]; rfl
    · show TabMode.enlarge = if shrinks numQ 1 1 = true then .shrink else .enlarge
      rw [hs]; rfl

/-- EveryStepKeepsSoundness, OnlySetAndResetWriteRegisters, FirstFaultStaysRecorded: sound states that step. -/
theorem witness_sound_step :
    let s := { State.reset with host := [.writeByte 0 7] }
    let f := { State.reset with host := [.command 0x24000000], fault := true, err := 1, info0 := 0xFFFFFFFF }
    (Sound Config.chip s ∧ ∃ t, step s = .next t) ∧ (Sound Config.chip f ∧ ∃ t, step f = .next t) ∧
      f.host.head? ≠ some .reset ∧ HostAction.command 0x24000000 ≠ .reset ∧
      ∀ r v, decode 0x24000000 ≠ .ok (.set r v) := by
  refine ⟨⟨⟨⟨by decide, fun _ => ⟨rfl, rfl⟩⟩, ⟨rfl, rfl, rfl, rfl⟩, ⟨rfl, rfl, rfl, rfl⟩, fun h => by cases h⟩,
      _, rfl⟩, ⟨⟨⟨by decide, fun h => by cases h⟩, ⟨rfl, rfl, rfl, rfl⟩, ⟨rfl, rfl, rfl, rfl⟩, fun h => by cases h⟩,
      _, rfl⟩, by decide, by decide, fun r v h => by cases h⟩

/-- FaultingResizeKeepsCompletedSteps: B-spline 2 to 1 faults in the X build; Bilinear 3 x 1 to 2 x 1 in the Y build. -/
theorem witness_faulting_resize :
    (ConfigLegal chip0 (configured 2 2 1 1 1 8 2) ∧ (∃ t, runWith chip0 .resize (configured 2 2 1 1 1 8 2) = .error t) ∧
      ¬ Buildable chip0 .x (configured 2 2 1 1 1 8 2)) ∧
    ConfigLegal chip0 (configured 3 1 2 1 1 8 1) ∧ (∃ t, runWith chip0 .resize (configured 3 1 2 1 1 8 1) = .error t) ∧
      Buildable chip0 .x (configured 3 1 2 1 1 8 1) := by
  refine ⟨⟨legal_of_check (by decide +kernel), raised_of (by decide +kernel), fun h => ?_⟩,
    legal_of_check (by decide +kernel), raised_of (by decide +kernel), fun i hi => ?_, by decide +kernel⟩
  · exact absurd ((h.1 0 (by decide)).2 (-4) (by decide +kernel)).2 (by decide)
  · have hi : i < 2 := hi
    show RowOk (chip0.krom) .bilinear 2 3 i
    have c0 : cands .bilinear 2 3 0 = [-1, 0, 1] := by decide +kernel
    have c1 : cands .bilinear 2 3 1 = [0, 1, 2, 3] := by decide +kernel
    interval_cases i
    · refine ⟨fun _ => by decide +kernel, ?_⟩
      rw [c0]
      unfold Inside
      decide
    · refine ⟨fun _ => by decide +kernel, ?_⟩
      rw [c1]
      unfold Inside
      decide

/-- ChannelsAreIndependentLanes: two sources of a PASS X that differ on channel 1 only. -/
theorem witness_lanes :
    let s := { shrinkBuilt with chans := 2, src := [(0, ⟨1, 2, 0, 0⟩)] }
    let s' := { s with src := [(0, ⟨1, 3, 0, 0⟩)] }
    OnlyBuffers s s' ∧ (∀ b a, slot (cellRead chip0 b s' a) 0 = slot (cellRead chip0 b s a) 0) ∧
      (∃ t, finish (runWith chip0 (.pass .x) s) = .next t) ∧ ∃ t, finish (runWith chip0 (.pass .x) s') = .next t := by
  refine ⟨rfl, fun b a => ?_, ?_, ?_⟩
  · cases b
    · by_cases h : 0 = a
      · subst h; rfl
      · simp [cellRead, bufMem, memRead, h, shrinkBuilt, shrinking, configured]
    · rfl
    · rfl
  · obtain ⟨t, h, -⟩ := finish_next (runWith chip0 (.pass .x)
      { shrinkBuilt with chans := 2, src := [(0, ⟨1, 2, 0, 0⟩)] })
    exact ⟨t, h⟩
  · obtain ⟨t, h, -⟩ := finish_next (runWith chip0 (.pass .x)
      { shrinkBuilt with chans := 2, src := [(0, ⟨1, 3, 0, 0⟩)] })
    exact ⟨t, h⟩

/-- ResamplingIgnoresDepth, SelectorDecode, and the frame statements over `exec`: from every state a command answers a
next state. -/
theorem witness_next :
    (tiny.depth = 8 ∨ tiny.depth = 16) ∧ ((16 : Field20) = 8 ∨ (16 : Field20) = 16) ∧
      (∃ t, finish (runWith chip0 .resize tiny) = .next t) ∧ ∃ t, exec .resize tiny = .next t := by
  refine ⟨.inl rfl, .inr rfl, ?_, ?_⟩
  · obtain ⟨t, h, -⟩ := finish_next (runWith chip0 .resize tiny)
    exact ⟨t, h⟩
  · obtain ⟨t, h, -⟩ := finish_next (runWith Config.chip .resize tiny)
    exact ⟨t, (exec_eq_runWith .resize tiny).trans h⟩

/-- UniformChannelIsKept: the shrink table over a uniform row, and over a uniform column. -/
theorem witness_uniform :
    (let s := { shrinkBuilt with src := cells [9, 9, 9, 9] };
      ConfigLegal chip0 s ∧ (0 : Fin 4).val < s.chans.toNat ∧
        (∀ i < axisDst .x s, ((s.ctab.getD i []).map Prod.snd).sum = 1) ∧
        (∀ p < bufW .src s * bufH .src s, slot (cellRead chip0 .src s p) 0 = 9) ∧
        ∃ t, runWith chip0 (.pass .x) s = .ok t) ∧
    (let s := { shrinkBuiltY with mid := cells [9, 9, 9, 9] };
      ConfigLegal chip0 s ∧ (0 : Fin 4).val < s.chans.toNat ∧
        (∀ i < axisDst .y s, ((s.ctab.getD i []).map Prod.snd).sum = 1) ∧
        (∀ p < bufW .mid s * bufH .mid s, slot (cellRead chip0 .mid s p) 0 = 9) ∧
        ∃ t, runWith chip0 (.pass .y) s = .ok t) :=
  ⟨⟨legal_of_check (by decide +kernel), by decide, by decide +kernel, by decide +kernel, ran_of (by decide +kernel)⟩,
    legal_of_check (by decide +kernel), by decide, by decide +kernel, by decide +kernel, ran_of (by decide +kernel)⟩

/-- IdentityResizeReproduces: Bilinear of `KROM_DEFAULT` on 2 x 2, whose support holds the integers -1, 0 and 1. -/
theorem witness_identity :
    let s := { configured 2 2 2 2 1 8 1 with src := cells [1, 2, 3, 4] }
    ConfigLegal chip0 s ∧ s.dstW = s.srcW ∧ s.dstH = s.srcH ∧ chip0.krom (kDecode s.ksel) 0 = 1 ∧
      (∀ m : Int, m ≠ 0 → |(m : Rat)| ≤ ksup (kDecode s.ksel) → chip0.krom (kDecode s.ksel) (m : Rat) = 0) ∧
      ∃ t, runWith chip0 .resize s = .ok t := by
  refine ⟨legal_of_check (by decide +kernel), rfl, rfl, by decide +kernel, fun m hm _ => ?_, ran_of (by decide +kernel)⟩
  show kBilinear (m : Rat) = 0
  unfold kBilinear
  rw [if_neg]
  rw [absQ_eq, not_lt]
  exact_mod_cast Int.one_le_abs hm

/-- BinaryRoundingIsNearest: a positive rational that binary64 does not hold, a tie that goes to the even multiple, the
two sides of the overflow threshold, and a subtraction of finite operands. -/
theorem witness_rounding :
    (0 : Rat) < 1 / 10 ∧ roundMag (1 / 10) ≠ 1 / 10 ∧ roundMag (2 ^ 53 + 1) = 2 ^ 53 ∧
      roundF64 true (pow2 1024 - pow2 970) = .inf true ∧
      roundF64 true (pow2 1024 - pow2 970 - 1) = .fin true (pow2 1024 - pow2 971) ∧
      signed false 1 - signed true 2 ≠ 0 ∧ numF64.sub (.fin false 1) (.fin true 2) = .fin false 3 := by decide +kernel

end Sys2Proof.Tests
end

section
/-! PROOFS. What a presented word does: the decoder answers well-formed commands only, and a step of a block that has
not faulted runs them, each to a next state (30_encoding.md R132; 40_config_and_pixelbuffer.md R160). -/

namespace Sys2Proof

/-- A sample immediate whose high four bits are zero fits 16 bits (30_encoding.md R130 (d)). -/
theorem decodeSet_wf {w : Word} {i : Instr} (h : decodeSet w = .ok i) : i.wf = true := by
  unfold decodeSet at h
  split_ifs at h
  split at h
  · cases h
  · rename_i r _
    split_ifs at h with hs
    cases h
    cases hr : r.isSample with
    | false => simp [Instr.wf, hr]
    | true =>
      have hbits : bits w 19 16 = 0 := by simpa [hr] using hs
      simp only [Instr.wf, hr, bits, BitVec.toNat_ofNat] at hbits ⊢
      simp only [Bool.not_true, Bool.false_or, decide_eq_true_eq]
      omega

theorem decodeBuf_wf {mk : Buf → Instr} {w : Word} {i : Instr} (hmk : ∀ b, (mk b).wf = true)
    (h : decodeBuf mk w = .ok i) : i.wf = true := by
  obtain ⟨b, rfl, -, -⟩ := decodeBuf_ok h
  exact hmk b

theorem decodeAxis_wf {mk : Axis → Instr} {w : Word} {i : Instr} (hmk : ∀ a, (mk a).wf = true)
    (h : decodeAxis mk w = .ok i) : i.wf = true := by
  obtain ⟨a, rfl, -, -⟩ := decodeAxis_ok h
  exact hmk a

/-- The decoder answers well-formed commands only, whatever the format. -/
theorem decode_wf {w : Word} {i : Instr} (h : decode w = .ok i) : i.wf = true := by
  unfold decode at h
  split at h
  · exact decodeSet_wf h
  · exact decodeBuf_wf (fun _ => rfl) h
  · exact decodeBuf_wf (fun _ => rfl) h
  · exact decodeBuf_wf (fun _ => rfl) h
  · exact decodeBuf_wf (fun _ => rfl) h
  · exact decodeBuf_wf (fun _ => rfl) h
  · exact decodeAxis_wf (fun _ => rfl) h
  · exact decodeAxis_wf (fun _ => rfl) h
  · split_ifs at h
    cases h
    rfl
  · cases h

end Sys2Proof

namespace Sys2Proof.Machine

/-- Outside the fault state a word that decodes runs (40_config_and_pixelbuffer.md R160, steps 1, 2 and 4). -/
theorem presentWord_of_decode {run : Instr → State → Host.Outcome State Fault Refusal} {w : Word} {s : State}
    {i : Instr} (hf : s.fault = false) (hd : decode w = .ok i) : presentWord run w s = run i s := by
  simp [presentWord, hf, hd]

/-- A step whose oldest host action is a word that decodes runs its command on the rest of the queue. -/
theorem step_command {s : State} {w : Word} {rest : List HostAction} {i : Instr} (hq : s.host = .command w :: rest)
    (hf : s.fault = false) (hd : decode w = .ok i) : step s = exec i { s with host := rest } := by
  rw [step_cons hq]
  exact presentWord_of_decode hf hd

theorem withFetchWord_host (s : State) (w : Word) :
    (s.withFetchWord 32 w.toNat).host = .command w :: s.host := by
  simp [State.withFetchWord, Nat.mod_eq_of_lt w.isLt]

/-- Settles O5: the queue hands the word to `presentWord`, and only well-formed commands decode. -/
theorem stepRunsTheDecodedCommand : Obligations.StepRunsTheDecodedCommand := by
  unfold Obligations.StepRunsTheDecodedCommand
  constructor
  · intro s w rest i hq hf hd
    exact ⟨decode_wf hd, step_command hq hf hd⟩
  · intro s w i hf hd
    exact step_command (withFetchWord_host s w) hf hd

/-- Settles O48: a command's body ends in a state either way, and `finish` answers that state. -/
theorem everyCommandTerminates : Obligations.EveryCommandTerminates := by
  unfold Obligations.EveryCommandTerminates
  intro i s
  obtain ⟨t, ht, -⟩ := finish_next (runWith Config.chip i s)
  exact ⟨t, (exec_eq_runWith i s).trans ht⟩

end Sys2Proof.Machine
end

section
/-! PROOFS. A number system held under rational names: every function of the builder and of the accumulator over it
answers the name of what it answers over the number system itself (00_scope.md R9; log 23). -/

namespace Sys2Proof.Machine

/-- One list of a table with every weight under its name. -/
def nameRow {F : Type} (name : F → Rat) (l : List (Int × F)) : List (Int × Rat) := l.map fun p => (p.1, name p.2)

/-- A ROM read over held values. -/
def heldRom {F : Type} (name : F → Rat) (read : Rat → F) (K : Kernel → F → F) : Kernel → Rat → Rat :=
  fun kid t => name (K kid (read t))

theorem length_nameRow {F : Type} (name : F → Rat) (l : List (Int × F)) : (nameRow name l).length = l.length := by
  simp [nameRow]

theorem nameTable_nil {F : Type} (name : F → Rat) : nameTable name [] = [] := rfl

theorem nameTable_cons {F : Type} (name : F → Rat) (l : List (Int × F)) (t : TableOf F) :
    nameTable name (l :: t) = nameRow name l :: nameTable name t := rfl

/-- The emission loop reads no weight: it puts named weights where it put the weights, and stops where it stopped. -/
theorem emitPairs_named {F : Type} (name : F → Rat) (ns cap i : Nat) (w : Int → F) (ks : List Int) (count : Nat) :
    emitPairs ns cap i (fun k => name (w k)) ks count = (emitPairs ns cap i w ks count).map (nameRow name) := by
  induction ks generalizing count with
  | nil => rfl
  | cons k ks ih =>
    simp only [emitPairs, ih]
    split_ifs
    · rfl
    · rfl
    · cases emitPairs ns cap i w ks (count + 1) <;> rfl

section
variable {F : Type} (N : Num F) {name : F → Rat} {read : Rat → F} (hread : ∀ x, read (name x) = x)
include hread

theorem scaleOf_held (nd ns : Nat) : scaleOf (heldNum N name read) nd ns = name (scaleOf N nd ns) := by
  simp [scaleOf, heldNum, hread]

theorem shrinks_held (nd ns : Nat) : shrinks (heldNum N name read) nd ns = shrinks N nd ns := by
  unfold shrinks
  rw [scaleOf_held N hread]
  simp [heldNum, hread]

theorem esupOf_held (kid : Kernel) (nd ns : Nat) :
    esupOf (heldNum N name read) kid nd ns = name (esupOf N kid nd ns) := by
  unfold esupOf
  rw [shrinks_held N hread, scaleOf_held N hread, apply_ite name]
  simp [heldNum, hread]

theorem centerOf_held (nd ns i : Nat) : centerOf (heldNum N name read) nd ns i = name (centerOf N nd ns i) := by
  unfold centerOf
  rw [scaleOf_held N hread]
  simp [heldNum, hread]

theorem candidatesOf_held (kid : Kernel) (nd ns i : Nat) :
    candidatesOf (heldNum N name read) kid nd ns i = candidatesOf N kid nd ns i := by
  unfold candidatesOf
  rw [centerOf_held N hread, esupOf_held N hread]
  simp [heldNum, hread]

theorem kernelArg_held (nd ns i : Nat) (k : Int) :
    kernelArg (heldNum N name read) nd ns i k = name (kernelArg N nd ns i k) := by
  simp only [kernelArg, shrinks_held N hread, centerOf_held N hread, scaleOf_held N hread, apply_ite name]
  simp [heldNum, hread]

/-- The running total: naming commutes with each addition of the fold. -/
theorem totalOf_held (K : Kernel → F → F) (kid : Kernel) (nd ns i : Nat) :
    totalOf (heldNum N name read) (heldRom name read K) kid nd ns i = name (totalOf N K kid nd ns i) := by
  unfold totalOf
  rw [candidatesOf_held N hread]
  apply List.foldl_hom name
  intro t k
  rw [kernelArg_held N hread]
  simp [heldNum, heldRom, hread]

theorem weightOf_held (K : Kernel → F → F) (kid : Kernel) (nd ns i : Nat) (total : F) :
    weightOf (heldNum N name read) (heldRom name read K) kid nd ns i (name total) =
      fun k => name (weightOf N K kid nd ns i total k) := by
  funext k
  simp only [weightOf, shrinks_held N hread, kernelArg_held N hread, apply_ite name]
  simp [heldNum, heldRom, hread]

theorem badTotal_held (t : F) : badTotal (heldNum N name read) (name t) = badTotal N t := by
  simp [badTotal, heldNum, hread]

theorem buildRow_held (K : Kernel → F → F) (kid : Kernel) (nd ns cap i count : Nat) :
    buildRow (heldNum N name read) (heldRom name read K) kid nd ns cap i count =
      (buildRow N K kid nd ns cap i count).map (nameRow name) := by
  unfold buildRow
  simp only [shrinks_held N hread, totalOf_held N hread, badTotal_held N hread, candidatesOf_held N hread,
    weightOf_held N hread, emitPairs_named]
  split_ifs
  · rfl
  · rfl

theorem buildRows_held (K : Kernel → F → F) (kid : Kernel) (nd ns cap : Nat) (is : List Nat) (count : Nat) :
    buildRows (heldNum N name read) (heldRom name read K) kid nd ns cap is count =
      (buildRows N K kid nd ns cap is count).map (nameTable name) := by
  induction is generalizing count with
  | nil => rfl
  | cons i is ih =>
    simp only [buildRows, buildRow_held N hread]
    cases buildRow N K kid nd ns cap i count with
    | error e => rfl
    | ok l =>
      simp only [Except.map, length_nameRow, ih]
      cases buildRows N K kid nd ns cap is (count + l.length) <;> rfl

/-- The builder over held values answers the named table, or the same stop. -/
theorem buildTable_held (K : Kernel → F → F) (kid : Kernel) (nd ns cap : Nat) :
    buildTable (heldNum N name read) (heldRom name read K) kid nd ns cap =
      (buildTable N K kid nd ns cap).map (nameTable name) :=
  buildRows_held N hread K kid nd ns cap (List.range nd) 0

/-- The accumulator over named weights is the name of the accumulator. -/
theorem mac_held (fetch : Int → U16) (l : List (Int × F)) :
    mac (heldNum N name read) fetch (nameRow name l) = name (mac N fetch l) := by
  unfold mac nameRow
  rw [List.foldl_map]
  apply List.foldl_hom name
  intro acc p
  simp [heldNum, hread]

theorem clampRound_held (x : F) : (heldNum N name read).clampRound (name x) = N.clampRound x := by
  simp [heldNum, hread]

end

/-! ### The names of `NUM_F64` -/

theorem squeezeQ_mem (q : Rat) : -1 < squeezeQ q ∧ squeezeQ q < 1 := by
  have hden : 0 < 1 + |q| := by positivity
  unfold squeezeQ
  rw [absQ_eq, lt_div_iff₀ hden, div_lt_iff₀ hden]
  constructor
  · linarith [neg_abs_le q]
  · linarith [le_abs_self q]

theorem unsqueezeQ_squeezeQ (q : Rat) : unsqueezeQ (squeezeQ q) = q := by
  have hden : 0 < 1 + |q| := by positivity
  have hrest : 1 - |q / (1 + |q|)| = 1 / (1 + |q|) := by
    rw [abs_div, abs_of_pos hden]
    field_simp
    ring
  unfold unsqueezeQ squeezeQ
  rw [absQ_eq, absQ_eq, hrest]
  field_simp

/-- The names of the positive values, the negative values, the infinities and not-a-number lie apart. -/
theorem readF64_nameF64 (x : F64) : readF64 (nameF64 x) = x := by
  cases x with
  | fin neg q =>
    obtain ⟨hlo, hhi⟩ := squeezeQ_mem q
    cases neg with
    | false => simp [nameF64, readF64, hhi, unsqueezeQ_squeezeQ]
    | true =>
      have h1 : ¬ 2 + squeezeQ q < 1 := by linarith
      have h3 : 2 + squeezeQ q < 3 := by linarith
      simp [nameF64, readF64, h1, h3, unsqueezeQ_squeezeQ]
  | inf neg => cases neg <;> norm_num [nameF64, readF64]
  | nan => norm_num [nameF64, readF64]

/-- Settles O54: naming commutes with every operation of the builder and of the accumulator. -/
theorem heldNumberSystemAgrees : Obligations.HeldNumberSystemAgrees := by
  unfold Obligations.HeldNumberSystemAgrees
  refine ⟨fun F N name read hread => ⟨buildTable_held N hread, fun fetch l => ?_⟩, readF64_nameF64⟩
  exact (congrArg _ (mac_held N hread fetch l)).trans (clampRound_held N hread _)

end Sys2Proof.Machine
end

section
/-! PROOFS. `NUM_F64` rounds to nearest, ties to even (00_scope.md R10; log 15): the quantum and the binade of a
magnitude, the nearest multiple, the overflow threshold, and the four operations on finite operands. -/

namespace Sys2Proof.Machine

theorem pow2_eq_zpow (e : Int) : pow2 e = (2 : Rat) ^ e := by
  unfold pow2
  split_ifs with h
  · lift e to Nat using h
    simp
  · obtain ⟨n, rfl⟩ : ∃ n : Nat, e = -(n : Int) := ⟨(-e).toNat, by omega⟩
    simp

/-- Consecutive powers of two, in the form the binade and the quantum meet them. -/
theorem zpow_two_succ (e : Int) : (2 : Rat) ^ (e + 1) = 2 * (2 : Rat) ^ e := by
  rw [zpow_add_one₀ two_ne_zero, mul_comm]

/-- A quotient of naturals lies within a factor of two of the quotient of their leading powers of two. -/
theorem zpow_log2_bounds {a b : Nat} (ha : a ≠ 0) (hb : b ≠ 0) :
    (2 : Rat) ^ ((Nat.log2 a : Int) - Nat.log2 b) < 2 * ((a : Rat) / b) ∧
      (a : Rat) / b < 2 * (2 : Rat) ^ ((Nat.log2 a : Int) - Nat.log2 b) := by
  have ha1 : (2 : Rat) ^ Nat.log2 a ≤ a := by exact_mod_cast Nat.log2_self_le ha
  have ha2 : (a : Rat) < 2 * 2 ^ Nat.log2 a := by
    rw [← pow_succ']; exact_mod_cast Nat.lt_log2_self
  have hb1 : (2 : Rat) ^ Nat.log2 b ≤ b := by exact_mod_cast Nat.log2_self_le hb
  have hb2 : (b : Rat) < 2 * 2 ^ Nat.log2 b := by
    rw [← pow_succ']; exact_mod_cast Nat.lt_log2_self
  have hb0 : (0 : Rat) < b := by positivity
  have hp : (0 : Rat) < 2 ^ Nat.log2 b := by positivity
  have ha0 : (0 : Rat) < a := by positivity
  have hq : (0 : Rat) < 2 ^ Nat.log2 a := by positivity
  rw [zpow_sub₀ two_ne_zero, zpow_natCast, zpow_natCast, ← mul_div_assoc, ← mul_div_assoc, div_lt_div_iff₀ hp hb0,
    div_lt_div_iff₀ hb0 hp]
  constructor
  · calc (2 : Rat) ^ Nat.log2 a * b ≤ a * b := by gcongr
      _ < a * (2 * 2 ^ Nat.log2 b) := by gcongr
      _ = 2 * a * 2 ^ Nat.log2 b := by ring
  · calc (a : Rat) * 2 ^ Nat.log2 b < 2 * 2 ^ Nat.log2 a * 2 ^ Nat.log2 b := by gcongr
      _ ≤ 2 * 2 ^ Nat.log2 a * b := by gcongr

/-- `binade q` is the exponent of the leading bit of q. -/
theorem binade_spec {q : Rat} (hq : 0 < q) : (2 : Rat) ^ binade q ≤ q ∧ q < (2 : Rat) ^ (binade q + 1) := by
  have hnum : q.num.natAbs ≠ 0 := by simpa using hq.ne'
  have hdiv : (q.num.natAbs : Rat) / q.den = q := by
    have habs : ((q.num.natAbs : Int) : Rat) = q.num := by
      exact_mod_cast Int.natAbs_of_nonneg (Rat.num_nonneg.mpr hq.le)
    calc (q.num.natAbs : Rat) / q.den = (q.num : Rat) / q.den := by rw [← habs]; simp
      _ = q := Rat.num_div_den q
  obtain ⟨hlo, hhi⟩ := zpow_log2_bounds hnum q.den_nz
  rw [hdiv] at hlo hhi
  unfold binade
  simp only [pow2_eq_zpow]
  split_ifs with h
  · exact ⟨h, by rwa [zpow_two_succ]⟩
  · have hs := zpow_two_succ ((Nat.log2 q.num.natAbs : Int) - Nat.log2 q.den - 1)
    rw [sub_add_cancel] at hs ⊢
    constructor <;> linarith

/-- `roundEven` is within half a unit, and even when it is exactly half a unit away. -/
theorem roundEven_spec (q : Rat) :
    |(roundEven q : Rat) - q| ≤ 1 / 2 ∧ (|(roundEven q : Rat) - q| = 1 / 2 → 2 ∣ roundEven q) := by
  have hlo : (q.floor : Rat) ≤ q := Int.floor_le q
  have hhi : q < q.floor + 1 := Int.lt_floor_add_one q
  unfold roundEven
  generalize q.floor = n at *
  simp only
  split_ifs with h1 h2 h3
  · rw [abs_sub_comm, abs_of_nonneg (by linarith)]
    exact ⟨h1.le, fun h => absurd h h1.ne⟩
  · push_cast
    rw [abs_of_nonneg (by linarith)]
    exact ⟨by linarith, fun h => by linarith⟩
  · rw [abs_sub_comm, abs_of_nonneg (by linarith)]
    exact ⟨by linarith, fun _ => Int.dvd_of_emod_eq_zero h3⟩
  · push_cast
    rw [abs_of_nonneg (by linarith)]
    exact ⟨by linarith, fun _ => by omega⟩

/-- `n * 2^u` is the magnitude of q: the multiple of the quantum of q's binade nearest to q, the even one at a tie. -/
def IsRounding (q : Rat) (u n : Int) : Prop :=
  -1074 ≤ u ∧ |(n : Rat) * 2 ^ u - q| ≤ 2 ^ u / 2 ∧ (|(n : Rat) * 2 ^ u - q| = 2 ^ u / 2 → 2 ∣ n) ∧
    (u = -1074 ∨ (2 : Rat) ^ (u + 52) ≤ q) ∧ q < (2 : Rat) ^ (u + 53)

/-- Rounding `q / 2^u` to an integer rounds q to a multiple of `2^u`. -/
theorem abs_roundEven_mul_sub (q : Rat) (u : Int) :
    |(roundEven (q / 2 ^ u) : Rat) * 2 ^ u - q| = |(roundEven (q / 2 ^ u) : Rat) - q / 2 ^ u| * 2 ^ u := by
  have hu : (0 : Rat) < 2 ^ u := by positivity
  conv_rhs => rw [← abs_of_pos hu, ← abs_mul, abs_of_pos hu, sub_mul, div_mul_cancel₀ _ hu.ne']

theorem isRounding_of_bounds {q : Rat} {u : Int} (he : -1074 ≤ u) (hn : u = -1074 ∨ (2 : Rat) ^ (u + 52) ≤ q)
    (hb : q < (2 : Rat) ^ (u + 53)) : IsRounding q u (roundEven (q / 2 ^ u)) := by
  have hu : (0 : Rat) < 2 ^ u := by positivity
  obtain ⟨hnear, htie⟩ := roundEven_spec (q / 2 ^ u)
  refine ⟨he, ?_, fun h => htie ?_, hn, hb⟩
  · rw [abs_roundEven_mul_sub]
    exact (mul_le_mul_of_nonneg_right hnear hu.le).trans_eq (by ring)
  · rw [abs_roundEven_mul_sub] at h
    exact mul_right_cancel₀ hu.ne' (h.trans (by ring))

/-- `roundMag q` is such a multiple, its quantum read off the binade and kept at or above the subnormal one. -/
theorem roundMag_spec {q : Rat} (hq : 0 < q) : ∃ u n : Int, roundMag q = n * 2 ^ u ∧ IsRounding q u n := by
  obtain ⟨hlo, hhi⟩ := binade_spec hq
  unfold roundMag
  simp only [pow2_eq_zpow]
  refine ⟨_, _, rfl, ?_⟩
  split_ifs with h
  · refine isRounding_of_bounds le_rfl (.inl rfl) (hhi.trans_le ?_)
    exact zpow_le_zpow_right₀ one_le_two (by omega)
  · refine isRounding_of_bounds (by omega) (.inr ?_) ?_
    · rwa [sub_add_cancel]
    · rwa [show binade q - 52 + 53 = binade q + 1 by ring]

/-- An integer multiple of a positive quantum that exceeds the multiple one below `a` is at least the multiple `a`. -/
theorem intCast_mul_le_of_lt {a n : Int} {U : Rat} (hU : 0 < U) (h : ((a : Rat) - 1) * U < n * U) :
    (a : Rat) * U ≤ n * U := by
  have hlt : ((a - 1 : Int) : Rat) < n := by
    push_cast
    exact lt_of_mul_lt_mul_right h hU.le
  have hle : (a : Rat) ≤ n := by exact_mod_cast Int.sub_one_lt_iff.mp (by exact_mod_cast hlt)
  exact mul_le_mul_of_nonneg_right hle hU.le

theorem zpow_two_add_natCast (e : Int) (k : Nat) : (2 : Rat) ^ (e + k) = ((2 ^ k : Int) : Rat) * 2 ^ e := by
  rw [zpow_add₀ two_ne_zero, zpow_natCast]
  push_cast
  ring

/-- The power of two that starts a normal binade stays a lower bound. -/
theorem IsRounding.leading_le {q : Rat} {u n : Int} (h : IsRounding q u n) (hq : (2 : Rat) ^ (u + 52) ≤ q) :
    (2 : Rat) ^ (u + 52) ≤ n * 2 ^ u := by
  have hu : (0 : Rat) < 2 ^ u := by positivity
  have hpow : (2 : Rat) ^ (u + 52) = _ := zpow_two_add_natCast u 52
  obtain ⟨-, hnear, -⟩ := h
  obtain ⟨hlo, -⟩ := abs_le.mp hnear
  rw [hpow] at hq ⊢
  exact intCast_mul_le_of_lt hu (by linarith)

/-- The power of two that ends a binade is reached from half a quantum below it on: at that midpoint the lower
multiple, `2^53 - 1`, is odd. -/
theorem IsRounding.ending_le_iff {q : Rat} {u n : Int} (h : IsRounding q u n) :
    (2 : Rat) ^ (u + 53) ≤ n * 2 ^ u ↔ (2 : Rat) ^ (u + 53) - 2 ^ u / 2 ≤ q := by
  have hu : (0 : Rat) < 2 ^ u := by positivity
  have hpow : (2 : Rat) ^ (u + 53) = _ := zpow_two_add_natCast u 53
  obtain ⟨-, hnear, htie, -⟩ := h
  obtain ⟨hlo, hhi⟩ := abs_le.mp hnear
  constructor
  · intro hn
    linarith
  · intro hq
    rw [hpow] at hq ⊢
    have hmul : ((2 ^ 53 - 1 : Int) : Rat) * 2 ^ u ≤ n * 2 ^ u :=
      intCast_mul_le_of_lt hu (by push_cast at hq ⊢; linarith)
    have hn : 2 ^ 53 - 1 ≤ n := by exact_mod_cast le_of_mul_le_mul_right hmul hu
    have hne : n ≠ 2 ^ 53 - 1 := by
      rintro rfl
      have heven : (2 : Int) ∣ 2 ^ 53 - 1 := htie (by
        push_cast at hq hlo ⊢
        rw [abs_of_nonpos (by linarith)]
        linarith)
      omega
    have hle : (2 ^ 53 : Int) ≤ n := by omega
    exact mul_le_mul_of_nonneg_right (by exact_mod_cast hle) hu.le

/-- A magnitude reaches the end of the binade of quantum `2^m` exactly when the value is within half that quantum of it
or above: a smaller quantum leaves it below, a larger one starts at or above that end. -/
theorem IsRounding.le_iff {q : Rat} {u n m : Int} (h : IsRounding q u n) (hm : -1074 ≤ m) :
    (2 : Rat) ^ (m + 53) ≤ n * 2 ^ u ↔ (2 : Rat) ^ (m + 53) - 2 ^ m / 2 ≤ q := by
  have hm0 : (0 : Rat) < 2 ^ m := by positivity
  have hmono : ∀ {e f : Int}, e ≤ f → (2 : Rat) ^ e ≤ 2 ^ f := fun hef => zpow_le_zpow_right₀ one_le_two hef
  obtain ⟨-, hnear, -, hnormal, hbelow⟩ := id h
  rcases lt_trichotomy u m with hlt | rfl | hgt
  · have hq : q < (2 : Rat) ^ (m + 52) := hbelow.trans_le (hmono (by omega))
    have hhalf : (2 : Rat) ^ (m + 53) = 2 * 2 ^ (m + 52) := by
      rw [← zpow_two_succ, show m + 52 + 1 = m + 53 by ring]
    have hum : (2 : Rat) ^ u ≤ 2 ^ m := hmono hlt.le
    have hmm : (2 : Rat) ^ m ≤ 2 ^ (m + 52) := hmono (by omega)
    obtain ⟨-, hhi⟩ := abs_le.mp hnear
    exact iff_of_false (by linarith) (by linarith)
  · exact h.ending_le_iff
  · have hq : (2 : Rat) ^ (u + 52) ≤ q := hnormal.resolve_left (by omega)
    have hend : (2 : Rat) ^ (m + 53) ≤ 2 ^ (u + 52) := hmono (by omega)
    exact iff_of_true (hend.trans (h.leading_le hq)) (by linarith)

/-- The overflow threshold of binary64: the quantum of the last binade is `2^971`. -/
theorem pow2_1024_le_roundMag_iff {q : Rat} (hq : 0 < q) :
    pow2 1024 ≤ roundMag q ↔ pow2 1024 - pow2 970 ≤ q := by
  obtain ⟨u, n, hval, hr⟩ := roundMag_spec hq
  have hhalf : (2 : Rat) ^ (970 : Int) = 2 ^ (971 : Int) / 2 := by
    rw [show (971 : Int) = 970 + 1 from rfl, zpow_two_succ, mul_div_cancel_left₀ _ two_ne_zero]
  rw [hval, pow2_eq_zpow, pow2_eq_zpow, hhalf]
  exact hr.le_iff (m := 971) (by norm_num)

theorem roundF64_pos (neg : Bool) {q : Rat} (hq : 0 < q) :
    roundF64 neg q = if pow2 1024 - pow2 970 ≤ q then .inf neg else .fin neg (roundMag q) := by
  simp only [roundF64, if_neg hq.ne', pow2_1024_le_roundMag_iff hq]

/-! ### The operations on finite operands -/

/-- The operation's result z is the rounding of the exact result e, when e is not 0. -/
def RoundsExact (z : F64) (e : Rat) : Prop := e ≠ 0 → z = roundF64 (decide (e < 0)) |e|

theorem signed_mul_signed (n m : Bool) (p q : Rat) : signed n p * signed m q = signed (n != m) (p * q) := by
  cases n <;> cases m <;> simp [signed]

theorem signed_div_signed (n m : Bool) (p q : Rat) : signed n p / signed m q = signed (n != m) (p / q) := by
  cases n <;> cases m <;> simp [signed, neg_div, div_neg]

theorem signed_not (m : Bool) (q : Rat) : signed (!m) q = -signed m q := by
  cases m <;> simp [signed]

/-- A sign and a magnitude round under that sign. -/
theorem roundsExact_signed (k : Bool) {r : Rat} (hr : 0 ≤ r) : RoundsExact (roundF64 k r) (signed k r) := by
  intro hne
  cases k with
  | false => simp [signed, abs_of_nonneg hr, not_lt.mpr hr]
  | true =>
    have hpos : 0 < r := hr.lt_of_ne (by rintro rfl; simp [signed] at hne)
    simp [signed, abs_of_pos hpos, hpos]

theorem addF64_fin (n m : Bool) (p q : Rat) :
    RoundsExact (addF64 (.fin n p) (.fin m q)) (signed n p + signed m q) := by
  intro hne
  simp [addF64, hne, ofRatF64, absQ_eq]

theorem subF64_fin (n m : Bool) (p q : Rat) :
    RoundsExact (numF64.sub (.fin n p) (.fin m q)) (signed n p - signed m q) := by
  rw [sub_eq_add_neg, ← signed_not]
  exact addF64_fin n (!m) p q

theorem mulF64_fin (n m : Bool) {p q : Rat} (hp : 0 ≤ p) (hq : 0 ≤ q) :
    RoundsExact (mulF64 (.fin n p) (.fin m q)) (signed n p * signed m q) := by
  rw [signed_mul_signed]
  exact roundsExact_signed _ (mul_nonneg hp hq)

theorem divF64_fin (n m : Bool) {p q : Rat} (hp : 0 ≤ p) (hq : 0 ≤ q) (h0 : q ≠ 0) :
    RoundsExact (divF64 (.fin n p) (.fin m q)) (signed n p / signed m q) := by
  rw [signed_div_signed, divF64, if_neg h0]
  exact roundsExact_signed _ (div_nonneg hp hq)

/-- Settles O53: the magnitude is the nearest multiple of its quantum, whence the threshold; each operation hands its
exact result to the rounding. -/
theorem binaryRoundingIsNearest : Obligations.BinaryRoundingIsNearest := by
  unfold Obligations.BinaryRoundingIsNearest
  refine ⟨fun q hq => ?_, fun neg q hq => roundF64_pos neg hq, fun n m p q hp hq => ?_⟩
  · obtain ⟨u, n, hval, hexp, hnearest⟩ := roundMag_spec hq
    simp only [pow2_eq_zpow, hval]
    exact ⟨u, n, hexp, rfl, hnearest⟩
  · exact ⟨addF64_fin n m p q, subF64_fin n m p q, mulF64_fin n m hp hq, divF64_fin n m hp hq⟩

end Sys2Proof.Machine
end

section
/-! PROOFS. How a command ends: a property of the states in which a command body can end, faulting or not, and the
rules that carry it through the shared operations (40_config_and_pixelbuffer.md R160; 44_separable_resampler.md
R266). -/

namespace Sys2Proof.Machine

/-- The state in which a command body ends, with or without a fault, has the property `P`. -/
def EndsIn (P : State → Prop) (r : Ran) : Prop :=
  match r with
  | .ok t => P t
  | .error t => P t

@[simp] theorem endsIn_ok (P : State → Prop) (t : State) : EndsIn P (.ok t) ↔ P t := Iff.rfl

@[simp] theorem endsIn_error (P : State → Prop) (t : State) : EndsIn P (.error t) ↔ P t := Iff.rfl

theorem EndsIn.imp {P Q : State → Prop} (hPQ : ∀ t, P t → Q t) {r : Ran} (h : EndsIn P r) : EndsIn Q r := by
  cases r with
  | ok t => exact hPQ t h
  | error t => exact hPQ t h

/-- The next state of a command is the state its body ends in. -/
theorem EndsIn.of_finish {P : State → Prop} {r : Ran} {t : State} (h : EndsIn P r) (ht : finish r = .next t) :
    P t := by
  cases r with
  | ok u => cases ht; exact h
  | error u => cases ht; exact h

/-- The prologue ends in a fault of the configuration check, or as the body does under a legal configuration. -/
theorem endsIn_checked {P : State → Prop} {c : Config} {body : State → Ran} {s : State}
    (hraise : ∀ e i0 i1, P (raise e i0 i1 s)) (hbody : ConfigLegal c s → EndsIn P (body s)) :
    EndsIn P (checked c body s) := by
  rcases checked_cases c body s with ⟨e, i0, i1, -, h⟩ | ⟨hl, h⟩
  · rw [h]; exact hraise e i0 i1
  · rw [h]; exact hbody hl

/-- A conversion ends in `E_ALLOC(4, 0)` or in its result (41_byte_conversion.md R190). -/
theorem endsIn_ifStreamFits {P : State → Prop} {c : Config} {b : Buf} {s t : State}
    (hraise : ∀ e i0 i1, P (raise e i0 i1 s)) (ht : streamBytes b s ≤ c.capByt → P t) :
    EndsIn P (ifStreamFits c b s t) := by
  rcases ifStreamFits_cases c b s t with ⟨-, h⟩ | ⟨hfit, h⟩
  · rw [h]; exact hraise .eAlloc 4 0
  · rw [h]; exact ht hfit

/-- A stopped build raises some fault, and does nothing else. -/
theorem raiseStop_eq_raise (e : BuildStop) (s : State) : ∃ e' i0 i1, raiseStop e s = raise e' i0 i1 s := by
  cases e with
  | norm i => exact ⟨_, _, _, rfl⟩
  | refl i k => exact ⟨_, _, _, rfl⟩
  | alloc i => exact ⟨_, _, _, rfl⟩

/-- A build ends in a fault after its flags were written, or with the table of its axis (43_contribution_table.md
R238). -/
theorem endsIn_buildBody {P : State → Prop} {c : Config} {a : Axis} {s : State}
    (hraise : ∀ e i0 i1, P (raise e i0 i1 (startTable a (axisShrinks c a s) s)))
    (htable : ∀ T, axisTable c a s = .ok T → P (completeTable T (startTable a (axisShrinks c a s) s))) :
    EndsIn P (buildBody c a s) := by
  rcases buildBody_cases c a s with ⟨e, -, h⟩ | ⟨T, hT, h⟩
  · obtain ⟨e', i0, i1, he⟩ := raiseStop_eq_raise e (startTable a (axisShrinks c a s) s)
    rw [h, he]
    exact hraise e' i0 i1
  · rw [h]; exact htable T hT

/-- A pass ends in `E_SEQ` or in the pass with its table consumed (44_separable_resampler.md R265). -/
theorem endsIn_passBody {P : State → Prop} {c : Config} {w : Word} {a : Axis} {s : State}
    (hraise : ∀ e i0 i1, P (raise e i0 i1 s)) (hpass : P (dropTable (passAxis c a s))) :
    EndsIn P (passBody c w a s) := by
  unfold passBody
  split
  · exact hraise _ _ _
  · exact hpass

/-- RESIZE keeps what BUILD and a complete pass keep, being BUILD X, PASS X, BUILD Y, PASS Y up to the first fault
(44_separable_resampler.md R266). -/
theorem endsIn_resizeBody {P : State → Prop} {c : Config} {s : State}
    (hbuild : ∀ a t, P t → EndsIn P (buildBody c a t)) (hpass : ∀ a t, P t → P (dropTable (passAxis c a t)))
    (hs : P s) : EndsIn P (resizeBody c s) := by
  have hx := hbuild .x s hs
  rcases resizeBody_cases c s with ⟨e, h1, h⟩ | ⟨s1, e, h1, h3, h⟩ | ⟨s1, s3, h1, h3, h⟩
  · rw [h1] at hx
    rw [h]; exact hx
  · rw [h1] at hx
    have hy := hbuild .y _ (hpass .x s1 hx)
    rw [passAxis, h3] at hy
    rw [h]; exact hy
  · rw [h1] at hx
    have hy := hbuild .y _ (hpass .x s1 hx)
    rw [passAxis, h3] at hy
    rw [h]; exact hpass .y s3 hy

end Sys2Proof.Machine
end

section
/-! PROOFS. The invariant `Sound` holds at reset and every step keeps it: one lemma per operation on the state, then
the bodies of the commands, then the host's actions. -/

namespace Sys2Proof.Machine

/-! ### What the validity of a table depends on -/

/-- Registers 0 to 6 agree. -/
def SameConfig (s t : State) : Prop :=
  t.srcW = s.srcW ∧ t.srcH = s.srcH ∧ t.dstW = s.dstW ∧ t.dstH = s.dstH ∧ t.chans = s.chans ∧ t.depth = s.depth ∧
    t.ksel = s.ksel

/-- Registers 0 to 6, the flags of the table and the table agree. -/
def SameTable (s t : State) : Prop :=
  SameConfig s t ∧ t.tabv = s.tabv ∧ t.tabax = s.tabax ∧ t.tabmode = s.tabmode ∧ t.ctab = s.ctab

theorem SameConfig.legal {c : Config} {s t : State} (h : SameConfig s t) (hl : ConfigLegal c s) : ConfigLegal c t := by
  obtain ⟨hsw, hsh, hdw, hdh, hch, hd, -⟩ := h
  exact {
    srcW := hsw ▸ hl.srcW
    srcH := hsh ▸ hl.srcH
    dstW := hdw ▸ hl.dstW
    dstH := hdh ▸ hl.dstH
    chans := hch ▸ hl.chans
    depth := hd ▸ hl.depth
    fitsSrc := by rw [hsw, hsh]; exact hl.fitsSrc
    fitsMid := by rw [hdw, hsh]; exact hl.fitsMid
    fitsDst := by rw [hdw, hdh]; exact hl.fitsDst }

theorem SameConfig.axisDst_eq {s t : State} (h : SameConfig s t) (a : Axis) : axisDst a t = axisDst a s := by
  obtain ⟨-, -, hdw, hdh, -⟩ := h
  simp only [axisDst, hdw, hdh]

theorem SameConfig.axisSrc_eq {s t : State} (h : SameConfig s t) (a : Axis) : axisSrc a t = axisSrc a s := by
  obtain ⟨hsw, hsh, -⟩ := h
  simp only [axisSrc, hsw, hsh]

theorem SameConfig.axisTable_eq {s t : State} (h : SameConfig s t) (c : Config) (a : Axis) :
    axisTable c a t = axisTable c a s := by
  rw [axisTable, axisTable, h.axisDst_eq, h.axisSrc_eq]
  obtain ⟨-, -, -, -, -, -, hk⟩ := h
  rw [hk]

theorem SameConfig.axisShrinks_eq {s t : State} (h : SameConfig s t) (c : Config) (a : Axis) :
    axisShrinks c a t = axisShrinks c a s := by
  simp only [axisShrinks, h.axisDst_eq, h.axisSrc_eq]

/-- Without a valid table nothing is asked of it. -/
theorem tableSound_of_invalid {c : Config} {s : State} (h : s.tabv = false) : TableSound c s := by
  intro hv
  rw [h] at hv
  cases hv

theorem SameTable.tableSound {c : Config} {s t : State} (h : SameTable s t) (hs : TableSound c s) :
    TableSound c t := by
  obtain ⟨hcfg, hv, hax, hmode, hct⟩ := h
  intro ht
  obtain ⟨hl, hok, hm⟩ := hs (hv ▸ ht)
  refine ⟨hcfg.legal hl, ?_, ?_⟩
  · rw [hax, hct, hcfg.axisTable_eq, hok]
  · rw [hax, hmode, hcfg.axisShrinks_eq, hm]

theorem sameTable_raise (e : Cause) (i0 i1 : Int) (s : State) : SameTable s (raise e i0 i1 s) := by
  simp [SameTable, SameConfig]

theorem sameTable_setBufMem (b : Buf) (m : List (Nat × Sample)) (s : State) : SameTable s (setBufMem b m s) := by
  simp [SameTable, SameConfig]

/-- Registers 7 to 12 are no part of the configuration. -/
theorem sameTable_regWrite {r : Reg} (hr : isConfigReg r = false) (v : Field20) (s : State) :
    SameTable s (regWrite r v s) := by
  cases r <;> simp [isConfigReg, regNum, SameTable, SameConfig, regWrite] at hr ⊢

/-! ### The operations on the state keep the invariant -/

theorem causeCode_ne_zero (e : Cause) : causeCode e ≠ 0 := by cases e <;> decide

/-- A recorded fault has a cause code other than 0 (60_exceptions.md R301). -/
theorem sound_raise {c : Config} {s : State} (h : Sound c s) (e : Cause) (i0 i1 : Int) :
    Sound c (raise e i0 i1 s) where
  faultRecord := ⟨⟨fun _ => causeCode_ne_zero e, fun _ => rfl⟩, fun hf => by cases hf⟩
  canonical := h.canonical
  inBounds := h.inBounds
  table := (sameTable_raise e i0 i1 s).tableSound h.table

theorem sound_setBufMem {c : Config} {b : Buf} {m : List (Nat × Sample)} {s : State} (h : Sound c s)
    (hwf : memWf (c.powerOnCell s.epoch b) m = true) (hbelow : memBelow (c.capBuf b) m = true) :
    Sound c (setBufMem b m s) where
  faultRecord := by simpa [FaultRecordSound] using h.faultRecord
  canonical := by
    obtain ⟨hsrc, hmid, hdst, hbyt⟩ := h.canonical
    cases b with
    | src => exact ⟨hwf, hmid, hdst, hbyt⟩
    | mid => exact ⟨hsrc, hwf, hdst, hbyt⟩
    | dst => exact ⟨hsrc, hmid, hwf, hbyt⟩
  inBounds := by
    obtain ⟨hsrc, hmid, hdst, hbyt⟩ := h.inBounds
    cases b with
    | src => exact ⟨hbelow, hmid, hdst, hbyt⟩
    | mid => exact ⟨hsrc, hbelow, hdst, hbyt⟩
    | dst => exact ⟨hsrc, hmid, hbelow, hbyt⟩
  table := (sameTable_setBufMem b m s).tableSound h.table

/-- In a sound state every sample buffer is canonical. -/
theorem Sound.memWf_bufMem {c : Config} {s : State} (h : Sound c s) (b : Buf) :
    memWf (c.powerOnCell s.epoch b) (bufMem b s) = true := by
  obtain ⟨hsrc, hmid, hdst, -⟩ := h.canonical
  cases b with
  | src => exact hsrc
  | mid => exact hmid
  | dst => exact hdst

/-- In a sound state every sample buffer is inside its capacity. -/
theorem Sound.memBelow_bufMem {c : Config} {s : State} (h : Sound c s) (b : Buf) :
    memBelow (c.capBuf b) (bufMem b s) = true := by
  obtain ⟨hsrc, hmid, hdst, -⟩ := h.inBounds
  cases b with
  | src => exact hsrc
  | mid => exact hmid
  | dst => exact hdst

theorem sound_cellWrite {c : Config} {b : Buf} {a : Nat} {s : State} (h : Sound c s) (ha : a < c.capBuf b)
    (t : Sample) : Sound c (cellWrite c b a t s) :=
  sound_setBufMem h (memWf_memWrite _ (h.memWf_bufMem b)) (memBelow_memWrite _ ha (h.memBelow_bufMem b))

theorem sound_cellFill {c : Config} {b : Buf} {n : Nat} {s : State} (h : Sound c s) (hn : n ≤ c.capBuf b)
    (f : Nat → Sample) : Sound c (cellFill c b n f s) :=
  sound_setBufMem h (memWf_memFill _ (h.memWf_bufMem b)) (memBelow_memFill _ hn (h.memBelow_bufMem b))

theorem sound_setByt {c : Config} {m : List Host.Cell} {s : State} (h : Sound c s)
    (hwf : memWf (c.powerOnByte s.epoch) m = true) (hbelow : memBelow c.capByt m = true) :
    Sound c { s with byt := m } where
  faultRecord := h.faultRecord
  canonical := by
    obtain ⟨hsrc, hmid, hdst, -⟩ := h.canonical
    exact ⟨hsrc, hmid, hdst, hwf⟩
  inBounds := by
    obtain ⟨hsrc, hmid, hdst, -⟩ := h.inBounds
    exact ⟨hsrc, hmid, hdst, hbelow⟩
  table := SameTable.tableSound (by simp [SameTable, SameConfig]) h.table

theorem sound_byteWrite {c : Config} {a : Nat} {s : State} (h : Sound c s) (ha : a < c.capByt) (v : Byte) :
    Sound c (byteWrite c a v s) := by
  obtain ⟨-, -, -, hwf⟩ := h.canonical
  obtain ⟨-, -, -, hbelow⟩ := h.inBounds
  exact sound_setByt h (memWf_memWrite _ hwf) (memBelow_memWrite _ ha hbelow)

theorem sound_byteFill {c : Config} {n : Nat} {s : State} (h : Sound c s) (hn : n ≤ c.capByt) (f : Nat → Byte) :
    Sound c (byteFill c n f s) := by
  obtain ⟨-, -, -, hwf⟩ := h.canonical
  obtain ⟨-, -, -, hbelow⟩ := h.inBounds
  exact sound_setByt h (memWf_memFill _ hwf) (memBelow_memFill _ hn hbelow)

theorem sound_dropTable {c : Config} {s : State} (h : Sound c s) : Sound c (dropTable s) :=
  ⟨h.faultRecord, h.canonical, h.inBounds, tableSound_of_invalid rfl⟩

theorem sound_startTable {c : Config} {s : State} (h : Sound c s) (a : Axis) (shrink : Bool) :
    Sound c (startTable a shrink s) :=
  ⟨h.faultRecord, h.canonical, h.inBounds, tableSound_of_invalid rfl⟩

theorem sameConfig_built (T : Table) (a : Axis) (shrink : Bool) (s : State) :
    SameConfig s (completeTable T (startTable a shrink s)) := by
  simp [SameConfig]

/-- The table a successful build completes is the table of the configuration, whose registers it leaves alone. -/
theorem sound_built {c : Config} {a : Axis} {s : State} {T : Table} (h : Sound c s) (hl : ConfigLegal c s)
    (hT : axisTable c a s = .ok T) : Sound c (completeTable T (startTable a (axisShrinks c a s) s)) where
  faultRecord := h.faultRecord
  canonical := h.canonical
  inBounds := h.inBounds
  table := fun _ =>
    have hcfg := sameConfig_built T a (axisShrinks c a s) s
    ⟨hcfg.legal hl, (hcfg.axisTable_eq c a).trans hT, by rw [hcfg.axisShrinks_eq]; rfl⟩

theorem sound_setSmp {c : Config} {s : State} (h : Sound c s) (t : Sample) : Sound c { s with smp := t } :=
  ⟨h.faultRecord, h.canonical, h.inBounds, SameTable.tableSound (by simp [SameTable, SameConfig]) h.table⟩

theorem sound_setHost {c : Config} {s : State} (h : Sound c s) (q : List HostAction) : Sound c { s with host := q } :=
  ⟨h.faultRecord, h.canonical, h.inBounds, SameTable.tableSound (by simp [SameTable, SameConfig]) h.table⟩

/-- `SET` of a configuration register drops the table, `SET` of another one keeps it (40_config_and_pixelbuffer.md
R161). -/
theorem sound_setBody {c : Config} {s : State} (h : Sound c s) (r : Reg) (v : Field20) : Sound c (setBody r v s) where
  faultRecord := by simpa [FaultRecordSound] using h.faultRecord
  canonical := by simpa [MemoriesCanonical] using h.canonical
  inBounds := by simpa [MemoriesInBounds] using h.inBounds
  table := by
    cases hr : isConfigReg r with
    | true => exact tableSound_of_invalid (by simp [setBody_tabv, hr])
    | false =>
      have hset : setBody r v s = regWrite r v s := by simp [setBody, hr]
      rw [hset]
      exact (sameTable_regWrite hr v s).tableSound h.table

/-- A cleared block is sound, whichever contents its memories draw and whatever the host does next. -/
theorem sound_cleared (c : Config) (n : Nat) (q : List HostAction) :
    Sound c { State.reset with epoch := n, host := q } where
  faultRecord := by simp [FaultRecordSound, State.reset]
  canonical := by simp [MemoriesCanonical, State.reset]
  inBounds := by simp [MemoriesInBounds, State.reset]
  table := tableSound_of_invalid rfl

/-! ### The commands keep the invariant -/

/-- A pass fills the active extent of its target, which a legal configuration keeps inside the capacity. -/
theorem sound_passAxis {c : Config} {s : State} (h : Sound c s) (hl : ConfigLegal c s) (a : Axis) :
    Sound c (passAxis c a s) := by
  cases a with
  | x => exact sound_cellFill h (extent_le_cap hl .mid) _
  | y => exact sound_cellFill h (extent_le_cap hl .dst) _

theorem sameConfig_dropTable_passAxis (c : Config) (a : Axis) (s : State) :
    SameConfig s (dropTable (passAxis c a s)) := by
  cases a <;> simp [SameConfig, passAxis, passX, passY]

theorem sound_legal_buildBody {c : Config} (a : Axis) (s : State) (h : Sound c s ∧ ConfigLegal c s) :
    EndsIn (fun t => Sound c t ∧ ConfigLegal c t) (buildBody c a s) := by
  obtain ⟨hs, hl⟩ := h
  refine endsIn_buildBody (fun e i0 i1 => ⟨sound_raise (sound_startTable hs _ _) e i0 i1, ?_⟩)
    (fun T hT => ⟨sound_built hs hl hT, (sameConfig_built T a _ s).legal hl⟩)
  exact SameConfig.legal (by simp [SameConfig]) hl

theorem sound_legal_pass {c : Config} (a : Axis) (s : State) (h : Sound c s ∧ ConfigLegal c s) :
    Sound c (dropTable (passAxis c a s)) ∧ ConfigLegal c (dropTable (passAxis c a s)) := by
  obtain ⟨hs, hl⟩ := h
  exact ⟨sound_dropTable (sound_passAxis hs hl a), (sameConfig_dropTable_passAxis c a s).legal hl⟩

/-- Every command ends in a sound state, on every chip. -/
theorem sound_runWith {c : Config} {s : State} (h : Sound c s) (i : Instr) : EndsIn (Sound c) (runWith c i s) := by
  have hraise := sound_raise h
  cases i with
  | set r v => exact sound_setBody h r v
  | clr b => exact endsIn_checked hraise fun hl => sound_cellFill h (extent_le_cap hl b) _
  | get b => exact endsIn_checked hraise fun _ => sound_setSmp h _
  | put b =>
    refine endsIn_checked hraise fun hl => sound_cellWrite h ?_ _
    exact (cellAddr_lt (bufW_pos hl b) (bufH_pos hl b)).trans_le (extent_le_cap hl b)
  | unpack b =>
    exact endsIn_checked hraise fun hl =>
      endsIn_ifStreamFits hraise fun _ => sound_cellFill h (extent_le_cap hl b) _
  | pack b =>
    exact endsIn_checked hraise fun _ => endsIn_ifStreamFits hraise fun hfit => sound_byteFill h hfit _
  | build a => exact endsIn_checked hraise fun hl => (sound_legal_buildBody a s ⟨h, hl⟩).imp fun _ ht => ht.1
  | pass a =>
    exact endsIn_checked hraise fun hl => endsIn_passBody hraise (sound_legal_pass a s ⟨h, hl⟩).1
  | resize =>
    exact endsIn_checked hraise fun hl =>
      (endsIn_resizeBody sound_legal_buildBody sound_legal_pass ⟨h, hl⟩).imp fun _ ht => ht.1

theorem sound_exec {i : Instr} {s t : State} (h : Sound Config.chip s) (ht : exec i s = .next t) :
    Sound Config.chip t := by
  rw [exec_eq_runWith] at ht
  exact (sound_runWith h i).of_finish ht

/-! ### The host's actions keep the invariant -/

theorem sound_presentWord {w : Word} {s t : State} (h : Sound Config.chip s)
    (ht : presentWord exec w s = .next t) : Sound Config.chip t := by
  unfold presentWord at ht
  split at ht
  · cases ht; exact h
  · split at ht
    · cases ht; exact sound_raise h _ _ _
    · exact sound_exec h ht

theorem sound_hostWriteCell {c : Config} {b : Buf} {a : Nat} {v : Sample} {s t : State} (h : Sound c s)
    (ht : hostWriteCell c b a v s = .next t) : Sound c t := by
  unfold hostWriteCell at ht
  split_ifs at ht with hf ha
  · cases ht; exact h
  · cases ht; exact sound_cellWrite h ha v

theorem sound_hostWriteByte {c : Config} {a : Nat} {v : Byte} {s t : State} (h : Sound c s)
    (ht : hostWriteByte c a v s = .next t) : Sound c t := by
  unfold hostWriteByte at ht
  split_ifs at ht with hf ha
  · cases ht; exact h
  · cases ht; exact sound_byteWrite h ha v

theorem sound_hostAction {x : HostAction} {s t : State} (h : Sound Config.chip s)
    (ht : hostAction Config.chip exec x s = .next t) : Sound Config.chip t := by
  cases x with
  | command w => exact sound_presentWord h ht
  | writeCell b a v => exact sound_hostWriteCell h ht
  | writeByte a v => exact sound_hostWriteByte h ht
  | reset => cases ht; exact sound_cleared _ _ _

/-- Settles O47: an idle step changes nothing, any other one takes a host action on the rest of the queue. -/
theorem everyStepKeepsSoundness : Obligations.EveryStepKeepsSoundness := by
  unfold Obligations.EveryStepKeepsSoundness
  intro s t h ht
  cases hq : s.host with
  | nil =>
    rw [step_idle hq] at ht
    cases ht
    exact h
  | cons x rest =>
    rw [step_cons hq] at ht
    exact sound_hostAction (sound_setHost h rest) ht

/-- Settles O46: reset clears the block. -/
theorem resetIsSound : Obligations.ResetIsSound := sound_cleared Config.chip 0 []

end Sys2Proof.Machine
end

section
/-! PROOFS. Every cell a command writes carries 0 at and above `CHANS` (10_state.md R36): the relation between the state
before and after, its rules for the operations that write cells, then the commands. -/

namespace Sys2Proof.Machine

/-- Every cell of a buffer reads in `t` as in `s`, or reads 0 in every slot at and above the channel count of `s`; the
channel count itself is kept, so that the relation composes over the sub-steps of RESIZE. -/
def MaskedWrites (c : Config) (s t : State) : Prop :=
  t.chans = s.chans ∧ ∀ b a, cellRead c b t a = cellRead c b s a ∨
    ∀ ch : Fin 4, s.chans.toNat ≤ ch.val → slot (cellRead c b t a) ch = 0

theorem MaskedWrites.trans {c : Config} {s t u : State} (hst : MaskedWrites c s t) (htu : MaskedWrites c t u) :
    MaskedWrites c s u := by
  obtain ⟨hc, hst⟩ := hst
  obtain ⟨hc', htu⟩ := htu
  refine ⟨hc'.trans hc, fun b a => ?_⟩
  rcases htu b a with h | h
  · rw [h]; exact hst b a
  · rw [hc] at h; exact .inr h

/-- An operation that leaves the buffers, the epoch and the channel count alone. -/
theorem maskedWrites_of_kept {c : Config} {s t : State} (hch : t.chans = s.chans) (hep : t.epoch = s.epoch)
    (hmem : ∀ b, bufMem b t = bufMem b s) : MaskedWrites c s t :=
  ⟨hch, fun b a => .inl (by simp only [cellRead, hep, hmem])⟩

theorem maskedWrites_raise (c : Config) (s : State) (e : Cause) (i0 i1 : Int) : MaskedWrites c s (raise e i0 i1 s) :=
  maskedWrites_of_kept rfl rfl fun _ => rfl

theorem maskedWrites_cellWrite {c : Config} {b : Buf} {a : Nat} {v : Sample} {s : State}
    (hv : ∀ ch : Fin 4, s.chans.toNat ≤ ch.val → slot v ch = 0) : MaskedWrites c s (cellWrite c b a v s) := by
  refine ⟨by simp, fun b' a' => ?_⟩
  rw [cellRead_cellWrite]
  split
  · exact .inr hv
  · exact .inl rfl

theorem maskedWrites_cellFill {c : Config} {b : Buf} {n : Nat} {f : Nat → Sample} {s : State}
    (hf : ∀ a (ch : Fin 4), s.chans.toNat ≤ ch.val → slot (f a) ch = 0) : MaskedWrites c s (cellFill c b n f s) := by
  refine ⟨by simp, fun b' a' => ?_⟩
  rw [cellRead_cellFill]
  split
  · exact .inr (hf a')
  · exact .inl rfl

theorem slot_sampleOfChannels_of_le {n : Nat} (f : Fin 4 → U16) {ch : Fin 4} (h : n ≤ ch.val) :
    slot (sampleOfChannels n f) ch = 0 := by
  rw [slot_sampleOfChannels, if_neg (Nat.not_lt.mpr h)]

theorem slot_zero (ch : Fin 4) : slot ⟨0, 0, 0, 0⟩ ch = 0 := by fin_cases ch <;> rfl

theorem maskedWrites_buildBody (c : Config) (a : Axis) (s : State) :
    EndsIn (MaskedWrites c s) (buildBody c a s) :=
  endsIn_buildBody (fun _ _ _ => maskedWrites_of_kept rfl rfl fun _ => rfl)
    (fun _ _ => maskedWrites_of_kept rfl rfl fun _ => rfl)

/-- A pass writes masked pixels only (44_separable_resampler.md R263, R264); consuming the table writes no cell. -/
theorem maskedWrites_pass (c : Config) (a : Axis) (s : State) :
    MaskedWrites c s (dropTable (passAxis c a s)) := by
  have hpass : MaskedWrites c s (passAxis c a s) := by
    cases a with
    | x => exact maskedWrites_cellFill fun _ _ h => slot_sampleOfChannels_of_le _ h
    | y => exact maskedWrites_cellFill fun _ _ h => slot_sampleOfChannels_of_le _ h
  exact hpass.trans (maskedWrites_of_kept rfl rfl fun _ => rfl)

theorem maskedWrites_resizeBody (c : Config) (s : State) : EndsIn (MaskedWrites c s) (resizeBody c s) :=
  endsIn_resizeBody (fun a t ht => (maskedWrites_buildBody c a t).imp fun _ => ht.trans)
    (fun a t ht => ht.trans (maskedWrites_pass c a t)) (maskedWrites_of_kept rfl rfl fun _ => rfl)

theorem maskedWrites_runWith {i : Instr} (c : Config) (s : State) (hset : Spec.NotSet i) :
    EndsIn (MaskedWrites c s) (runWith c i s) := by
  have hraise := maskedWrites_raise c s
  cases i with
  | set r v => exact absurd rfl (hset r v)
  | clr b => exact endsIn_checked hraise fun _ => maskedWrites_cellFill fun _ ch _ => slot_zero ch
  | get b => exact endsIn_checked hraise fun _ => maskedWrites_of_kept rfl rfl fun _ => rfl
  | put b => exact endsIn_checked hraise fun _ => maskedWrites_cellWrite fun _ h => slot_sampleOfChannels_of_le _ h
  | unpack b =>
    exact endsIn_checked hraise fun _ => endsIn_ifStreamFits hraise fun _ =>
      maskedWrites_cellFill fun _ _ h => slot_sampleOfChannels_of_le _ h
  | pack b =>
    exact endsIn_checked hraise fun _ => endsIn_ifStreamFits hraise fun _ =>
      maskedWrites_of_kept rfl rfl fun _ => rfl
  | build a => exact endsIn_checked hraise fun _ => maskedWrites_buildBody c a s
  | pass a => exact endsIn_checked hraise fun _ => endsIn_passBody hraise (maskedWrites_pass c a s)
  | resize => exact endsIn_checked hraise fun _ => maskedWrites_resizeBody c s

/-- `SET` writes no cell. -/
theorem cellRead_setBody (c : Config) (r : Reg) (v : Field20) (b : Buf) (s : State) (a : Nat) :
    cellRead c b (setBody r v s) a = cellRead c b s a := by
  cases r <;> rfl

/-- Settles O52: `SET` writes no cell, and every cell another command writes is masked. -/
theorem writtenCellsAreZeroAboveChans : Obligations.WrittenCellsAreZeroAboveChans := by
  unfold Obligations.WrittenCellsAreZeroAboveChans
  intro i s t ht b a
  rw [exec_eq_runWith] at ht
  by_cases hset : Spec.NotSet i
  · obtain ⟨-, h⟩ := (maskedWrites_runWith Config.chip s hset).of_finish ht
    exact h b a
  · simp only [Spec.NotSet, not_forall, not_not] at hset
    obtain ⟨r, v, rfl⟩ := hset
    cases ht
    exact .inl (cellRead_setBody _ r v b s a)

end Sys2Proof.Machine
end

section
/-! PROOFS. The state after reset and the layout of the `STATUS` word (10_state.md R34, R45). -/

namespace Sys2Proof.Machine

theorem regRead_assertReset (r : Reg) (s : State) : regRead r (assertReset s) = 0 := by cases r <;> rfl

theorem statusWord_assertReset (s : State) : statusWord (assertReset s) = 0 := rfl

/-- Settles O8: the step asserts reset on the rest of the queue. -/
theorem resetLeavesTheResetState : Obligations.ResetLeavesTheResetState := by
  unfold Obligations.ResetLeavesTheResetState
  intro s rest hq
  exact ⟨assertReset { s with host := rest }, step_cons hq, fun r => regRead_assertReset r _,
    statusWord_assertReset _, rfl, rfl, rfl, rfl, rfl, rfl, rfl, rfl, rfl⟩

/-- The number of an axis is its flag `TABAX`, 1 for Y (10_state.md R34). -/
theorem axisNum_eq_flag (a : Axis) : axisNum a = flag (a = .y) := by cases a <;> rfl

/-- Four flags packed from bit 0 on are the low bits of their word, and nothing else is set. -/
theorem packedFlags_layout : ∀ f v y m : Bool,
    let w := BitVec.ofNat 32 (flag f + 2 * flag v + 4 * flag y + 8 * flag m)
    w.getLsbD 0 = f ∧ w.getLsbD 1 = v ∧ w.getLsbD 2 = y ∧ w.getLsbD 3 = m ∧ w.toNat < 16 := by
  decide

/-- Settles O10: the word packs the four flags, `FAULT` lowest. -/
theorem statusWordLayout : Obligations.StatusWordLayout := by
  unfold Obligations.StatusWordLayout
  intro s
  obtain ⟨hf, hv, hax, hmode, hlt⟩ :=
    packedFlags_layout s.fault s.tabv (s.tabax = .y) (s.tabmode = .shrink)
  rw [← axisNum_eq_flag] at hf hv hax hmode hlt
  exact ⟨hf, hv, hax, hmode, hlt, hf.symm⟩

end Sys2Proof.Machine
end

section
/-! PROOFS. What the host reads, and what a host write reaches (20_memory.md R83, R88 to R90): a unit exists
exactly below the capacity of its memory, which is the test every access makes. -/

namespace Sys2Proof.Machine

/-- Settles O55: zero-extension keeps the value of a register, and a memory has the addresses below its capacity. -/
theorem hostReadsShowTheState : Obligations.HostReadsShowTheState := by
  unfold Obligations.HostReadsShowTheState
  intro c s
  have reg20 (v : Field20) : (v.setWidth 32).toNat = v.toNat := BitVec.toNat_setWidth_of_le (by decide)
  have reg16 (v : U16) : (v.setWidth 32).toNat = v.toNat := BitVec.toNat_setWidth_of_le (by decide)
  have herr : (s.err.setWidth 32).toNat = s.err.toNat := BitVec.toNat_setWidth_of_le (by decide)
  exact ⟨⟨reg20 s.srcW, reg20 s.srcH, reg20 s.dstW, reg20 s.dstH, reg20 s.chans, reg20 s.depth, reg20 s.ksel,
      reg20 s.x, reg20 s.y, reg16 s.smp.c0, reg16 s.smp.c1, reg16 s.smp.c2, reg16 s.smp.c3⟩,
    ⟨rfl, herr, rfl, rfl⟩,
    fun b a => ⟨fun h => if_pos h, fun h => if_neg (Nat.not_lt.mpr h)⟩,
    fun a => ⟨fun h => if_pos h, fun h => if_neg (Nat.not_lt.mpr h)⟩,
    fun h => if_pos h⟩

/-- Outside the fault state a host write of an existing cell stores it (20_memory.md R90 (d)). -/
theorem step_writeCell {s : State} {b : Buf} {a : Nat} {v : Sample} {rest : List HostAction}
    (hq : s.host = .writeCell b a v :: rest) (hf : s.fault = false) (ha : a < Config.chip.capBuf b) :
    step s = .next (cellWrite Config.chip b a v { s with host := rest }) :=
  (step_cons hq).trans ((if_neg (Bool.eq_false_iff.mp hf)).trans (if_pos ha))

theorem step_writeByte {s : State} {a : Nat} {v : Byte} {rest : List HostAction}
    (hq : s.host = .writeByte a v :: rest) (hf : s.fault = false) (ha : a < Config.chip.capByt) :
    step s = .next (byteWrite Config.chip a v { s with host := rest }) :=
  (step_cons hq).trans ((if_neg (Bool.eq_false_iff.mp hf)).trans (if_pos ha))

theorem onlyBuffers_setBufMem (b : Buf) (m : List (Nat × Sample)) (s : State) :
    Spec.OnlyBuffers s (setBufMem b m s) := by
  cases b <;> rfl

/-- Settles O7: the step writes the unit on the rest of the queue, and a read after a write tells the units apart. -/
theorem hostWritesReachOneUnit : Obligations.HostWritesReachOneUnit := by
  unfold Obligations.HostWritesReachOneUnit
  constructor
  · intro s b a v rest hq hf ha
    have hread (b' : Buf) (a' : Nat) := cellRead_cellWrite Config.chip b b' a a' v { s with host := rest }
    refine ⟨_, step_writeCell hq hf ha, ?_, fun b' a' hne => ?_, onlyBuffers_setBufMem b _ _⟩
    · exact (if_pos ha).trans (congrArg some ((hread b a).trans (if_pos ⟨rfl, rfl⟩)))
    · exact (hread b' a').trans (if_neg fun ⟨hb, ha'⟩ => hne (Prod.ext hb ha'))
  · intro s a v rest hq hf ha
    have hread (a' : Nat) := byteRead_byteWrite Config.chip a a' v { s with host := rest }
    refine ⟨_, step_writeByte hq hf ha, ?_, fun a' hne => (hread a').trans (if_neg hne), rfl⟩
    exact (if_pos ha).trans (congrArg some ((hread a).trans (if_pos rfl)))

end Sys2Proof.Machine
end

section
/-! PROOFS. The periodic wrap is the residue, so it is unchanged by a period (20_memory.md R84). -/

namespace Sys2Proof.Machine

theorem cast_wrap (v : Int) {n : Nat} (h : 1 ≤ n) : (wrap v n : Int) = v % n :=
  Int.toNat_of_nonneg (Int.emod_nonneg v (Int.natCast_ne_zero.mpr (Nat.ne_of_gt h)))

theorem wrap_add_period (v : Int) (n : Nat) : wrap (v + n) n = wrap v n :=
  congrArg Int.toNat (Int.add_emod_right v n)

/-- Settles O16: each turn of a loop moves `v` by one period. -/
theorem wrapFollowsTheLoops : Obligations.WrapFollowsTheLoops := by
  unfold Obligations.WrapFollowsTheLoops
  intro v n hn
  refine ⟨fun _ => (wrap_add_period v n).symm, fun _ => ?_, fun h0 hlt => ?_, wrap_lt v hn, ?_, by decide⟩
  · rw [← wrap_add_period (v - n), Int.sub_add_cancel]
  · rw [cast_wrap v hn, Int.emod_eq_of_lt h0 hlt]
  · rw [cast_wrap v hn]
    exact Int.dvd_self_sub_emod

end Sys2Proof.Machine
end

section
/-! PROOFS. BUILD and RESIZE read `KSEL` through the decode only: their bodies commute with a write of another selector
of the same kernel (42_kernel_bank.md R211). -/

namespace Sys2Proof.Machine

/-- The state with another kernel selector. -/
def setKsel (k : Field20) (s : State) : State := { s with ksel := k }

/-- The end of a body, with or without a fault, under another kernel selector. -/
def setKselRan (k : Field20) (r : Ran) : Ran := (r.map (setKsel k)).mapError (setKsel k)

/-- Where `k` selects the kernel that `KSEL` selects, the body ends as if `KSEL` were written after it instead of before,
and still so. -/
def KselBlind (k : Field20) (body : State → Ran) : Prop :=
  ∀ s, kDecode k = kDecode s.ksel →
    body (setKsel k s) = setKselRan k (body s) ∧ EndsIn (fun t => kDecode k = kDecode t.ksel) (body s)

theorem KselBlind.bind {k : Field20} {g h : State → Ran} (hg : KselBlind k g) (hh : KselBlind k h) :
    KselBlind k fun s => (g s).bind h := by
  intro s hs
  obtain ⟨heq, hends⟩ := hg s hs
  beta_reduce
  rw [heq]
  cases hr : g s with
  | error t => rw [hr] at hends; exact ⟨rfl, hends⟩
  | ok t => rw [hr] at hends; exact hh t hends

theorem kselBlind_buildBody (c : Config) (a : Axis) (k : Field20) : KselBlind k (buildBody c a) := by
  intro s hs
  refine ⟨?_, endsIn_buildBody (fun _ _ _ => hs) fun _ _ => hs⟩
  have htable : axisTable c a (setKsel k s) = axisTable c a s :=
    congrArg (buildTable c.num c.krom · (axisDst a s) (axisSrc a s) c.capTab) hs
  rw [buildBody, buildBody, htable]
  cases axisTable c a s with
  | error e => cases e <;> rfl
  | ok T => rfl

theorem kselBlind_passBody (c : Config) (w : Word) (a : Axis) (k : Field20) : KselBlind k (passBody c w a) := by
  intro s hs
  have hpass : passAxis c a (setKsel k s) = setKsel k (passAxis c a s) := by cases a <;> rfl
  obtain ⟨-, -, -, -, -, -, hk⟩ := sameConfig_dropTable_passAxis c a s
  refine ⟨?_, endsIn_passBody (fun _ _ _ => hs) (hs.trans (congrArg kDecode hk.symm))⟩
  by_cases h : s.tabv = false ∨ s.tabax ≠ a
  · rw [passBody_seq c w h, passBody_seq (s := setKsel k s) c w h]
    rfl
  · rw [not_or, Bool.not_eq_false, ne_eq, not_not] at h
    obtain ⟨hv, ha⟩ := h
    rw [passBody_ok c w hv ha, passBody_ok (s := setKsel k s) c w hv ha, hpass]
    rfl

/-- RESIZE is its four sub-steps in sequence (44_separable_resampler.md R266). -/
theorem resizeBody_eq_bind (c : Config) (s : State) :
    resizeBody c s = (buildBody c .x s).bind fun s1 => (passBody c (encode .resize) .x s1).bind fun s2 =>
      (buildBody c .y s2).bind (passBody c (encode .resize) .y) := by
  unfold resizeBody
  cases buildBody c .x s with
  | error e => rfl
  | ok s1 =>
    dsimp only [Except.bind]
    cases passBody c (encode .resize) .x s1 with
    | error e => rfl
    | ok s2 => dsimp only; cases buildBody c .y s2 <;> rfl

theorem kselBlind_resizeBody (c : Config) (k : Field20) : KselBlind k (resizeBody c) :=
  funext (resizeBody_eq_bind c) ▸ (kselBlind_buildBody c .x k).bind
    ((kselBlind_passBody c _ .x k).bind ((kselBlind_buildBody c .y k).bind (kselBlind_passBody c _ .y k)))

/-- The configuration check does not read `KSEL` (60_exceptions.md R302), and the next state is the one the body ends
in. -/
theorem KselBlind.finish_checked {k : Field20} {c : Config} {body : State → Ran} {s t : State}
    (h : KselBlind k body) (hk : kDecode k = kDecode s.ksel) (ht : finish (checked c body s) = .next t) :
    finish (checked c body (setKsel k s)) = .next (setKsel k t) := by
  have heq : checked c body (setKsel k s) = setKselRan k (checked c body s) := by
    unfold checked
    rw [show checkCfg c (setKsel k s) = checkCfg c s from rfl]
    cases checkCfg c s with
    | none => exact (h s hk).1
    | some r => rfl
  rw [heq]
  cases hr : checked c body s with
  | error u => rw [hr] at ht; cases ht; rfl
  | ok u => rw [hr] at ht; cases ht; rfl

/-- Settles O22: the bodies of BUILD and RESIZE are blind to the selector. -/
theorem selectorDecode : Obligations.SelectorDecode := by
  refine ⟨rfl, rfl, rfl, rfl, rfl, rfl, fun v hv => ?_, fun c i s t k hi hk ht => ?_⟩
  · obtain ⟨n, hn⟩ := Nat.exists_eq_add_of_le' hv
    rw [kDecode, hn]
    rfl
  · rcases hi with rfl | ⟨a, rfl⟩
    · exact (kselBlind_resizeBody c k).finish_checked hk ht
    · exact (kselBlind_buildBody c a k).finish_checked hk ht

end Sys2Proof.Machine
end

section
/-! PROOFS. The ROM cut to the contract R212 meets it (42_kernel_bank.md R212; log 2). -/

namespace Sys2Proof.Machine

theorem ksup_pos (k : Kernel) : 0 < ksup k := by
  cases k with
  | box => exact one_half_pos
  | bilinear => exact one_pos
  | bspline | bicubic | mitchell => exact two_pos
  | lanczos3 => exact three_pos

theorem romPeak_nonneg (raw : Kernel → Rat → Rat) (k : Kernel) : 0 ≤ romPeak raw k :=
  iteInduction (motive := (0 ≤ ·)) (fun _ => le_rfl) not_lt.mp

/-- Each branch of the cut is 0, the peak, or capped by the peak. -/
theorem romCut_le_peak (raw : Kernel → Rat → Rat) (k : Kernel) (t : Rat) : romCut raw k t ≤ romPeak raw k :=
  iteInduction (motive := (· ≤ romPeak raw k)) (fun _ => romPeak_nonneg raw k) fun _ =>
    iteInduction (motive := (· ≤ romPeak raw k)) (fun _ => le_rfl) fun _ =>
      iteInduction (motive := (· ≤ romPeak raw k)) (fun _ => le_rfl) not_lt.mp

/-- Beyond the support the cut is 0, off the edge it reads the distance only, and the peak is its value at 0. -/
theorem romContract_romCut (raw : Kernel → Rat → Rat) : Spec.RomContract (romCut raw) := by
  intro k t
  have hzero : romCut raw k 0 = romPeak raw k := (if_neg (ksup_pos k).not_gt).trans (if_pos rfl)
  refine ⟨fun h => if_pos ?_, fun h => ?_, (romCut_le_peak raw k t).trans_eq hzero.symm⟩
  · rw [absQ_eq]
    exact h.elim (fun hl => (lt_neg.mp hl).trans_le (neg_le_abs t)) fun hr => hr.trans_le (le_abs_self t)
  · simp only [romCut, absQ_eq, abs_neg, neg_eq_zero, if_neg h]

/-- Settles O23: the ROM of the machine's chip is a cut one. -/
theorem romMeetsItsContract : Obligations.RomMeetsItsContract :=
  ⟨romContract_romCut _, romContract_romCut⟩

end Sys2Proof.Machine
end
